-- ==== Sys2Proof/Word.lean ====
section
/-! DEFINITION. The words on the ports, the levels a single wire can have, and tables keyed by a
number. Bit 0 is the least significant bit of every word (R7); every word is unsigned (R8). -/

namespace Sys2Proof

/-- An FP32 pattern (R33): always the pattern, never a number (R9). -/
abbrev Word32 := BitVec 32

/-- An FP16 pattern (R34). -/
abbrev Word16 := BitVec 16

/-- What one input wire can carry. `zero` and `one` are the two values the hardware is specified for;
`x` (unknown) and `z` (undriven) are outside the model, which refuses them (R108, D6). -/
inductive Level where
  | zero
  | one
  | x
  | z
deriving DecidableEq, Repr

/-- The levels on a bundle of wires, wire 0 first (R21: a port is a vector of wires indexed by
significance). -/
abbrev Signal := List Level

/-- A level the hardware is specified for. -/
def Level.twoValued : Level → Bool
  | .zero => true
  | .one => true
  | .x => false
  | .z => false

/-- Sparse data keyed by a number (an instance number, a net's name). The canonical form is
`tableSorted` (Machine/Ops.lean): keys strictly rising. -/
abbrev Table (α : Type) := List (Nat × α)

end Sys2Proof
end

