-- ==== Sys2Proof/Config.lean ====
section
/-! DEFINITION. The numbers of the design, all fixed by the source (R5; UNVERIFIED against the
original code, log entry 13, unsafe for the operands it names), and the values the spec leaves
to the caller. -/

namespace Sys2Proof

/-- `BIAS32` (R5). -/
abbrev Config.bias32 : Nat := 127

/-- `BIAS16` (R5). -/
abbrev Config.bias16 : Nat := 15

/-- `REBIAS` (R5): "the exponent rebiasing constant is fixed at 112". -/
abbrev Config.rebias : Nat := 112

/-- `MW32` (R5), the width of the FP32 mantissa field. -/
abbrev Config.mw32 : Nat := 23

/-- `MW16` (R5), the width of the FP16 mantissa field. -/
abbrev Config.mw16 : Nat := 10

/-- `MSHIFT` (R5), `MW32 - MW16`. -/
abbrev Config.mshift : Nat := 13

/-- `EMAX16` (R5), the all-ones FP16 exponent field. -/
abbrev Config.emax16 : Nat := 31

/-- `EMAX32` (R5), the all-ones FP32 exponent field. -/
abbrev Config.emax32 : Nat := 255

/-- `SIGN16_MASK` (R5), the sign bit of an FP16 pattern. -/
abbrev Config.sign16Mask : Nat := 0x8000

/-- `MANT16_MASK` (R5), the FP16 mantissa field. -/
abbrev Config.mant16Mask : Nat := 0x3FF

/-- DESIGN CHOICE, safe (log entry 2). The word on `f32_i` of encoder instance `k` before the caller has
presented one: "driven by the caller; their value after a system reset is the caller's business and is
unspecified here" (R19). A free value: it has no body, so no proof can see it. -/
opaque Config.undrivenF32 : Nat → Word32

/-- DESIGN CHOICE, safe (log entry 2). The same for `f16_i` of decoder instance `k` (R19). -/
opaque Config.undrivenF16 : Nat → Word16

end Sys2Proof
end

