-- ==== Sys2Proof/Syntax.lean ====
section
/-! DEFINITION. The operation set (R32) and the notation for programs (R40). -/

namespace Sys2Proof

/-- The two kinds of module (R1, R11): `fp32_to_fp16_converter` and `fp16_to_fp32_converter`. -/
inductive Block where
  | encoder
  | decoder
deriving DecidableEq, Repr

/-- The operation set: two operations, one operand each, no opcode bits, every word legal (R32, R38). The
"instruction word" is the operand word itself. -/
inductive Instr where
  /-- ENCODE of the FP32 pattern `x` on `f32_i` (R50). -/
  | encode (x : Word32)
  /-- DECODE of the FP16 pattern `h` on `f16_i` (R60). -/
  | decode (h : Word16)
deriving DecidableEq, Repr

/-- The source of a program line (R40): the name of a net, or a literal of a given width in bits. A literal is a
width and a number: DESIGN CHOICE, safe (log entry 7). One whose number does not fit its width is no literal of the
notation, and its line is never ready (`sourceSignal`, log entry 9). -/
inductive Source where
  | net (name : Nat)
  | literal (width value : Nat)
deriving DecidableEq, Repr

/-- One line of a program (R40): `ENCODE dst, src` or `DECODE dst, src`, which is one evaluation on one
module instance. Nets are named by numbers, instances too: DESIGN CHOICE, safe (log entries 7 and 10). -/
structure Line where
  block : Block
  dst : Nat
  src : Source
  unit : Nat
deriving DecidableEq, Repr

/-- The width of the block's input port (R11, R35). -/
def Block.operandWidth : Block → Nat
  | .encoder => 32
  | .decoder => 16

/-- The width of the block's output port (R11, R35). -/
def Block.resultWidth : Block → Nat
  | .encoder => 16
  | .decoder => 32

/-- The block that performs an operation (R32). -/
def Instr.block : Instr → Block
  | .encode _ => .encoder
  | .decode _ => .decoder

end Sys2Proof
end

