-- ==== Sys2Proof/WellFormed.lean ====
section
/-! DEFINITION. What a caller owes: an operand that is "a two-valued word of the right width" (R114), and a
program that is "a finite acyclic dataflow graph of evaluations" (R112) whose nets are each assigned
exactly once (R40). -/

namespace Sys2Proof

/-- Every instruction is well formed: no operand pattern is illegal or reserved (R38). -/
def Instr.wellFormed : Instr → Bool
  | .encode _ => true
  | .decode _ => true

/-- The signal has the width of the block's input port (R35). -/
def signalFits (b : Block) (sig : Signal) : Bool :=
  sig.length == b.operandWidth

/-- Every wire of the signal carries one of the two values (R108, D6). -/
def signalTwoValued (sig : Signal) : Bool :=
  sig.all Level.twoValued

/-- The launch premise of an evaluation (R114). -/
def signalWellFormed (b : Block) (sig : Signal) : Bool :=
  signalFits b sig && signalTwoValued sig

/-- The widths of the nets a program may read so far: `none` for a net that carries an `X` or a `Z`. -/
abbrev KnownNets := List (Nat × Option Nat)

/-- The net is known already. -/
def KnownNets.has (known : KnownNets) (n : Nat) : Bool :=
  known.any fun e => e.1 == n

/-- The number fits the width, as that of "32-bit hexadecimal literals" and "16-bit literals" does (R40). That a
number that does not fit is no literal, and is not cut to its low bits, is DEDUCED, safe (log entry 9). -/
def literalFits (width value : Nat) : Bool :=
  decide (value < 2 ^ width)

/-- The line's source is known, two-valued and of the width of its block's operand, and a literal's number fits that
width (R35, R40). -/
def Line.sourceFits (known : KnownNets) (l : Line) : Bool :=
  match l.src with
  | .net n => known.lookup n == some (some l.block.operandWidth)
  | .literal w v => w == l.block.operandWidth && literalFits w v

/-- The line assigns a net that nothing has assigned (R40, single assignment). -/
def Line.targetFresh (known : KnownNets) (l : Line) : Bool :=
  !known.has l.dst

/-- Lines written in an order in which every source is known before it is used: the textual form of a
finite acyclic dataflow graph (R112) in the notation of R40. -/
def programWellFormed (known : KnownNets) : List Line → Bool
  | [] => true
  | l :: ls =>
    l.sourceFits known && l.targetFresh known &&
      programWellFormed ((l.dst, some l.block.resultWidth) :: known) ls

/-- What the values of a program's input nets make known. -/
def knownNets (nets : Table Signal) : KnownNets :=
  nets.map fun e => (e.1, if signalTwoValued e.2 then some e.2.length else none)

end Sys2Proof
end

