-- ==== Sys2Proof/Decode.lean ====
section
/-! DEFINITION. From the wires of an input port to an operation and back. There are no opcode bits: the
block the word is presented to selects the operation, and every two-valued word of the right width is legal
(R32, R35, R38). There are no bytes inside the block and no byte order (R21). -/

namespace Sys2Proof

/-- `n` wires carrying the number `v`, wire 0 the least significant bit (R7). -/
def levelsOf : Nat → Nat → Signal
  | 0, _ => []
  | n + 1, v => (if v % 2 = 1 then .one else .zero) :: levelsOf n (v / 2)

/-- The bit a level stands for, if it stands for one. -/
def levelBit : Level → Option Nat
  | .zero => some 0
  | .one => some 1
  | .x => none
  | .z => none

/-- `uint` (R8) of the wires; none where a wire carries `X` or `Z`. -/
def signalValue : Signal → Option Nat
  | [] => some 0
  | l :: ls =>
    match levelBit l, signalValue ls with
    | some b, some v => some (b + 2 * v)
    | _, _ => none

/-- Why a signal is no operand of a block. -/
inductive PortReject where
  /-- The signal is not as wide as the block's input port (R35). -/
  | wrongWidth (got want : Nat)
  /-- A wire carries `X` or `Z` (R108, D6). -/
  | notTwoValued
deriving DecidableEq, Repr

/-- The operation a block performs on the word of value `v` at its input port (R32). -/
def blockInstr (b : Block) (v : Nat) : Instr :=
  match b with
  | .encoder => .encode (BitVec.ofNat 32 v)
  | .decoder => .decode (BitVec.ofNat 16 v)

/-- The operation selected by a signal at a block's input port: total on any signal, rejecting by name. -/
def decodePort (b : Block) (sig : Signal) : Except PortReject Instr :=
  if sig.length = b.operandWidth then
    match signalValue sig with
    | some v => .ok (blockInstr b v)
    | none => .error .notTwoValued
  else .error (.wrongWidth sig.length b.operandWidth)

/-- The block and the signal at its input port that select an operation: bits 31:0 of `x` on `f32_i[31:0]`,
bits 15:0 of `h` on `f16_i[15:0]` (R11, R33, R34). -/
def encodeInstr : Instr → Block × Signal
  | .encode x => (.encoder, levelsOf 32 x.toNat)
  | .decode h => (.decoder, levelsOf 16 h.toNat)

/-- The block whose operand has the given width. The table's two rows have mask and match zero (D7), so in
the host's numbering of words the width alone tells them apart. DESIGN CHOICE, safe (log entry 12). -/
def blockOfWidth : Nat → Option Block
  | 32 => some .encoder
  | 16 => some .decoder
  | _ => none

/-- The operation of the table's row of `nbits` bits whose word is the `nbits` low bits of `w`, bit 0 the least
significant. DESIGN CHOICE, safe (log entry 12): higher bits of `w` are no part of the word. -/
def decodeTableWord (nbits w : Nat) : Option Instr :=
  match blockOfWidth nbits with
  | none => none
  | some b =>
    match decodePort b (levelsOf nbits w) with
    | .ok i => some i
    | .error _ => none

end Sys2Proof
end

