-- ==== Sys2Proof/Machine/State.lean ====
section
/-! DEFINITION. The state, the reasons a step can stop, and the state right after reset. THE HARDWARE HOLDS
NO STATE (R10): what stands here is the words the caller holds on the input ports (R11) and the caller's own
side, the program of R40 that says which word is presented next. -/

namespace Sys2Proof.Machine

/-- No fault exists: "No error taxonomy exists: both conversions are total functions over their entire input
domain" (R90). DEDUCED (log entry 15): unsafe if a fault existed. The type has no constructor, so no step can fault. -/
inductive Fault where
deriving DecidableEq, Repr

/-- Why the model gives a step no meaning. Neither operation ever refuses (R57, R67): every reason but the
first is about what the caller presented. -/
inductive Refusal where
  /-- Raised by an arm of `exec` for an instruction without a meaning yet; no arm raises it. Safe. -/
  | notModelled (mnemonic : String)
  /-- Raised by `fetch`, DEDUCED (log entry 9): the line presents a signal that is not as wide as the input port, so it is no line of
  the notation of R40. Safe. -/
  | operandWidth (got want : Nat)
  /-- Raised by `fetch`, DEDUCED (log entry 6): the line presents a signal with an `X` or a `Z` on some wire, which "is outside the
  model, which refuses it rather than guess" (R108, D6). Safe. -/
  | operandNotTwoValued
  /-- Raised by `fetch`, DEDUCED (log entry 9): lines are left and none of their sources is known, so the program is no finite
  acyclic graph of evaluations over its input nets (R112), or their literals do not fit their widths (R40). Safe. -/
  | sourceNeverKnown
  /-- Raised by `fetch`, DEDUCED (log entry 9): the line assigns a net that has a value already; a net "is assigned exactly once"
  (R40). Safe. -/
  | netAssignedTwice (name : Nat)
deriving DecidableEq, Repr

/-- The words on the input ports, and the caller's program. -/
structure State where
  /-- `f32_i` of each encoder instance that has been presented a word: the word it holds (R11, R100). -/
  encoderIn : Table Word32
  /-- `f16_i` of each decoder instance that has been presented a word: the word it holds (R11, R100). -/
  decoderIn : Table Word16
  /-- The instance to which the wiring gives the next word (R32). The model's own field. DESIGN CHOICE (log entry
  10): its reset value 0 is unsafe, and no statement rests on it. -/
  wired : Nat
  /-- The nets that have a value (R40, R112): the program's input nets and the results so far. DESIGN CHOICE, safe
  (log entry 7): names are numbers. -/
  nets : Table Signal
  /-- The lines that have no result yet (R40, R112). DESIGN CHOICE (log entry 3): none at reset, unsafe for claims
  about the run from reset. -/
  program : List Line
  /-- The caller's choices among the ready lines, one a step; 0 where it is used up. Any order is allowed
  (R26, R40). The model's own field. DESIGN CHOICE, safe (log entry 8). -/
  schedule : List Nat
deriving DecidableEq, Repr

/-- Right after reset. There is nothing to reset (R19, R104): no word has been presented to any instance and
no program is loaded. DESIGN CHOICE (log entries 2, 3, 8 and 10; 3 and 10 unsafe). -/
def State.reset : State :=
  { encoderIn := [], decoderIn := [], wired := 0, nets := [], program := [], schedule := [] }

end Sys2Proof.Machine
end

