-- ==== Sys2Proof/Machine/Ops.lean ====
section
/-! DEFINITION. The named operations over tables and input ports. There is no memory (R17, R20), and there is
no exception to take or to return from (R90, R94, R95). -/

namespace Sys2Proof.Machine

/-- The entry of a table under a key. -/
def tableFind {α : Type} (k : Nat) : Table α → Option α
  | [] => none
  | (j, v) :: t => if k = j then some v else tableFind k t

/-- A table with the entry under one key set; a sorted table stays sorted. -/
def tablePut {α : Type} (k : Nat) (v : α) : Table α → Table α
  | [] => [(k, v)]
  | (j, u) :: t =>
    if k < j then (k, v) :: (j, u) :: t
    else if k = j then (k, v) :: t
    else (j, u) :: tablePut k v t

/-- The canonical form of a table: keys strictly rising. -/
abbrev tableSorted {α : Type} (t : Table α) : Prop :=
  t.Pairwise fun a b => a.1 < b.1

/-- Every table of the state is in canonical form. -/
abbrev State.wf (s : State) : Prop :=
  tableSorted s.encoderIn ∧ tableSorted s.decoderIn ∧ tableSorted s.nets

/-- The word on `f32_i` of encoder instance `k` (R11); before the caller presents one it is unspecified
(R19). -/
def State.f32I (s : State) (k : Nat) : Word32 :=
  (tableFind k s.encoderIn).getD (Config.undrivenF32 k)

/-- The word on `f16_i` of decoder instance `k` (R11, R19). -/
def State.f16I (s : State) (k : Nat) : Word16 :=
  (tableFind k s.decoderIn).getD (Config.undrivenF16 k)

/-- The caller presents `x` on `f32_i` of the encoder instance the wiring selects, and holds it (R108,
R113). -/
def State.presentF32 (s : State) (x : Word32) : State :=
  { s with encoderIn := tablePut s.wired x s.encoderIn }

/-- The caller presents `h` on `f16_i` of the decoder instance the wiring selects, and holds it (R108,
R113). -/
def State.presentF16 (s : State) (h : Word16) : State :=
  { s with decoderIn := tablePut s.wired h s.decoderIn }

/-- A net gets its value (R40). -/
def State.assignNet (s : State) (n : Nat) (sig : Signal) : State :=
  { s with nets := tablePut n sig s.nets }

end Sys2Proof.Machine
end

