-- ==== Sys2Proof/Machine/Operands.lean ====
section
/-! DEFINITION. The fields of the two formats (R33, R34) and the field moves of the two operations (R36),
with the shifts and masks of the source's wording (R51 to R53, R61 to R63, R86). -/

namespace Sys2Proof.Machine

/-- `s` of an FP32 pattern, bit 31 (R33). -/
def fp32Sign (x : Word32) : BitVec 1 := x.extractLsb' 31 1

/-- `e8` of an FP32 pattern, bits 30:23 (R33, R52). -/
def fp32Exp (x : Word32) : BitVec 8 := x.extractLsb' 23 8

/-- `m23` of an FP32 pattern, bits 22:0 (R33). -/
def fp32Mant (x : Word32) : BitVec 23 := x.extractLsb' 0 23

/-- The upper mantissa of an FP32 pattern, bits 22:13, which ENCODE keeps (R33). -/
def fp32Upper (x : Word32) : BitVec 10 := x.extractLsb' 13 10

/-- The lower mantissa of an FP32 pattern, bits 12:0, which ENCODE drops (R33). -/
def fp32Lower (x : Word32) : BitVec 13 := x.extractLsb' 0 13

/-- `s` of an FP16 pattern, bit 15 (R34). -/
def fp16Sign (h : Word16) : BitVec 1 := h.extractLsb' 15 1

/-- `e5` of an FP16 pattern, bits 14:10 (R34, R62). -/
def fp16Exp (h : Word16) : BitVec 5 := h.extractLsb' 10 5

/-- `m10` of an FP16 pattern, bits 9:0 (R34). -/
def fp16Mant (h : Word16) : BitVec 10 := h.extractLsb' 0 10

/-- The sign term of ENCODE (R51): `(x >> 16) & 0x8000`, in 16 bits. -/
def encSignTerm (x : Word32) : Word16 :=
  ((x >>> 16) &&& BitVec.ofNat 32 Config.sign16Mask).setWidth 16

/-- The rebiased exponent `E` of ENCODE (R52): exact and signed, -112 to 143 (R85). -/
def encRebiased (x : Word32) : Int :=
  ((fp32Exp x).toNat : Int) - (Config.rebias : Int)

/-- The extracted mantissa of ENCODE (R53): `(x >> 13) & 0x3FF`, truncated, never rounded. -/
def encMantissa (x : Word32) : Nat :=
  ((x >>> Config.mshift) &&& BitVec.ofNat 32 Config.mant16Mask).toNat

/-- The sign term of DECODE (R61): `zext_32(h & 0x8000) << 16`, masked before the shift. -/
def decSignTerm (h : Word16) : Word32 :=
  ((h &&& BitVec.ofNat 16 Config.sign16Mask).setWidth 32) <<< 16

/-- The mantissa term of DECODE (R63): `zext_32(h[9:0]) << 13`. -/
def decMantTerm (h : Word16) : Word32 :=
  ((h &&& BitVec.ofNat 16 Config.mant16Mask).setWidth 32) <<< Config.mshift

end Sys2Proof.Machine
end

