-- ==== Sys2Proof/Machine/Flags.lean ====
section
/-! DEFINITION. No flag, condition code or status output exists, and no operation sets or reads one (R14,
R84, D10). What the hardware tests is the exponent field: this file holds the class tests of the two
operations, in the order R93 gives them. -/

namespace Sys2Proof.Machine

/-- The classes of an ENCODE operand (R45, R54 to R56). -/
inductive EncClass where
  | underflow
  | overflow
  | normal
deriving DecidableEq, Repr

/-- The classes of a DECODE operand (R45, R64 to R66). -/
inductive DecClass where
  | zeroExponent
  | allOnes
  | normal
deriving DecidableEq, Repr

/-- ENCODE tests `E ≤ 0` first, then `E ≥ 31`, both signed (R52, R93). -/
def encClass (x : Word32) : EncClass :=
  if encRebiased x ≤ 0 then .underflow
  else if encRebiased x ≥ (Config.emax16 : Int) then .overflow
  else .normal

/-- DECODE tests `e5 == 0` first, then `e5 == 31`, on the extracted field (R62, R93). -/
def decClass (h : Word16) : DecClass :=
  if (fp16Exp h).toNat = 0 then .zeroExponent
  else if (fp16Exp h).toNat = Config.emax16 then .allOnes
  else .normal

end Sys2Proof.Machine
end

