-- ==== Sys2Proof/Machine/Decoder.lean ====
section
/-! DEFINITION. The DECODE operation of `fp16_to_fp32_converter` (R60 to R68). -/

namespace Sys2Proof.Machine

/-- The exponent field of the result (R64, R65, R66). -/
def decExpOut (h : Word16) : Nat :=
  match decClass h with
  | .zeroExponent => 0
  | .allOnes => Config.emax32
  | .normal => (fp16Exp h).toNat + Config.rebias

/-- `DECODE(h)`: `sign | (exponent << 23) | mantissa`; the mantissa is treated the same way in every class
(R60, R63, R67). -/
def decodeHalf (h : Word16) : Word32 :=
  decSignTerm h ||| (BitVec.ofNat 32 (decExpOut h) <<< Config.mw32) ||| decMantTerm h

/-- The formulation of R68, by concatenation, with an 8-bit addition. The machine does not use it; claims
compare it with `decodeHalf`. -/
def decodeHalfConcat (h : Word16) : Word32 :=
  let e8 : BitVec 8 :=
    if fp16Exp h = 0b00000#5 then 0x00#8
    else if fp16Exp h = 0b11111#5 then 0xFF#8
    else (fp16Exp h).setWidth 8 + 0x70#8
  fp16Sign h ++ e8 ++ fp16Mant h ++ 0#13

/-- `f32_o` of decoder instance `k`: the function of the word on that instance's `f16_i` and of nothing else,
at all times (R10, R11, R19). DEDUCED, safe (log entry 1). -/
def State.f32O (s : State) (k : Nat) : Word32 :=
  decodeHalf (s.f16I k)

/-- DECODE (R60): the word is on `f16_i` of the instance the wiring selects, and its `f32_o` is the result. No
state is read or written by the operation, no flag is set, nothing is raised. -/
def execDecode (h : Word16) (s : State) : Host.Outcome State Fault Refusal :=
  .next (s.presentF16 h)

end Sys2Proof.Machine
end

