-- ==== Sys2Proof/Machine/Encoder.lean ====
section
/-! DEFINITION. The ENCODE operation of `fp32_to_fp16_converter` (R50 to R58). -/

namespace Sys2Proof.Machine

/-- The exponent field of the result (R54, R55, R56). -/
def encExpOut (x : Word32) : Nat :=
  match encClass x with
  | .underflow => 0
  | .overflow => Config.emax16
  | .normal => (encRebiased x).toNat

/-- The mantissa field of the result: the extracted mantissa is discarded outside the normal class (R54, R55,
R56). -/
def encMantOut (x : Word32) : Nat :=
  match encClass x with
  | .underflow => 0
  | .overflow => 0
  | .normal => encMantissa x

/-- `ENCODE(x)`: `sign | (exponent << 10) | mantissa` (R50, R57). -/
def encodeHalf (x : Word32) : Word16 :=
  encSignTerm x ||| (BitVec.ofNat 16 (encExpOut x) <<< Config.mw16) ||| BitVec.ofNat 16 (encMantOut x)

/-- The formulation of R58, on bit vectors alone: unsigned comparisons and an 8-bit wrap-around subtraction.
The machine does not use it; claims compare it with `encodeHalf`. -/
def encodeHalfUnsigned (x : Word32) : Word16 :=
  if (fp32Exp x).ule 0x70#8 then fp32Sign x ++ 0#15
  else if (0x8F#8).ule (fp32Exp x) then fp32Sign x ++ 0b11111#5 ++ 0#10
  else fp32Sign x ++ (fp32Exp x - 0x70#8).extractLsb' 0 5 ++ fp32Upper x

/-- `f16_o` of encoder instance `k`: the function of the word on that instance's `f32_i` and of nothing else,
at all times (R10, R11, R19). DEDUCED, safe (log entry 1). -/
def State.f16O (s : State) (k : Nat) : Word16 :=
  encodeHalf (s.f32I k)

/-- ENCODE (R50): the word is on `f32_i` of the instance the wiring selects, and its `f16_o` is the result. No
state is read or written by the operation, no flag is set, nothing is raised. -/
def execEncode (x : Word32) (s : State) : Host.Outcome State Fault Refusal :=
  .next (s.presentF32 x)

end Sys2Proof.Machine
end

