-- ==== Sys2Proof/Machine/Bench.lean ====
section
/-! DEFINITION. The caller's side (R40, R112, R113): which line of the program is evaluated next, the word it
presents, and the net its result goes to. None of it is hardware. -/

namespace Sys2Proof.Machine

/-- The signal a source stands for, once it is known (R40). A literal whose number does not fit its width stands for
none, so its line is never ready and the program ends in the refusal `sourceNeverKnown`: DEDUCED, safe (log entry
9). -/
def sourceSignal (nets : Table Signal) : Source → Option Signal
  | .net n => tableFind n nets
  | .literal w v => if literalFits w v then some (levelsOf w v) else none

/-- "a line may be evaluated as soon as its source is known" (R40). -/
def lineReady (nets : Table Signal) (l : Line) : Bool :=
  (sourceSignal nets l.src).isSome

/-- The ready line with `k` ready lines before it, and the other lines in their order. -/
def pickReady (nets : Table Signal) : Nat → List Line → Option (Line × List Line)
  | _, [] => none
  | k, l :: ls =>
    if lineReady nets l then
      match k with
      | 0 => some (l, ls)
      | j + 1 => (pickReady nets j ls).map fun p => (p.1, l :: p.2)
    else (pickReady nets k ls).map fun p => (p.1, l :: p.2)

/-- The line the schedule takes next: its first number, counted round among the ready lines (R26: every order
is allowed). DESIGN CHOICE, safe (log entry 8). -/
def nextLine (s : State) : Option (Line × List Line) :=
  pickReady s.nets (s.schedule.headD 0 % s.program.countP (lineReady s.nets)) s.program

/-- The model's reason for a signal that is no operand. -/
def portRefusal : PortReject → Refusal
  | .wrongWidth got want => .operandWidth got want
  | .notTwoValued => .operandNotTwoValued

/-- The state in which a line's word is presented: the line and the schedule's number are used up, and the
wiring selects the line's instance (R32, R40). -/
def State.launch (s : State) (l : Line) (rest : List Line) : State :=
  { s with program := rest, schedule := s.schedule.tail, wired := l.unit }

/-- The next evaluation: its line, its operation and the state it starts in; none where every line has its
result (R112). -/
def fetch (s : State) : Except Refusal (Option (Line × Instr × State)) :=
  match nextLine s with
  | none => if s.program.isEmpty then .ok none else .error .sourceNeverKnown
  | some (l, rest) =>
    if (tableFind l.dst s.nets).isSome then .error (.netAssignedTwice l.dst)
    else
      match sourceSignal s.nets l.src with
      | none => .error .sourceNeverKnown
      | some sig =>
        match decodePort l.block sig with
        | .error e => .error (portRefusal e)
        | .ok i => .ok (some (l, i, s.launch l rest))

/-- The levels on a block instance's output port (R11). -/
def outputSignal (b : Block) (k : Nat) (s : State) : Signal :=
  match b with
  | .encoder => levelsOf 16 (s.f16O k).toNat
  | .decoder => levelsOf 32 (s.f32O k).toNat

/-- The line's destination net gets the word on the output port of the line's instance (R40, R112), in the same
step: there is no time (R108). DEDUCED, safe (log entries 5 and 16). -/
def deliver (l : Line) (s : State) : State :=
  s.assignNet l.dst (outputSignal l.block l.unit s)

/-- The nets a line names. -/
def lineNames (l : Line) : List Nat :=
  match l.src with
  | .net n => [l.dst, n]
  | .literal _ _ => [l.dst]

/-- A net no value and no line of the program names. -/
def freshName (s : State) : Nat :=
  (s.nets.map Prod.fst ++ s.program.flatMap lineNames).foldr (fun n m => max (n + 1) m) 0

/-- The caller puts one more line at the head of the program and takes it next: a literal of `nbits` bits whose
value is those bits of `w`, on the block of that width, its result going to a fresh net. DESIGN CHOICE (log entry 3), safe
for claims about every state. -/
def State.presentNext (s : State) (nbits w : Nat) : State :=
  { s with
    program :=
      { block := (blockOfWidth nbits).getD .encoder, dst := freshName s, src := .literal nbits (w % 2 ^ nbits),
        unit := s.wired } :: s.program
    schedule := 0 :: s.schedule }

/-- The signal of an operation's result word (R50, R60). -/
def resultSignal : Instr → Signal
  | .encode x => levelsOf 16 (encodeHalf x).toNat
  | .decode h => levelsOf 32 (decodeHalf h).toNat

/-- The nets after one line, read as a definition of its destination and with no machine, instance or order
in sight (R40): none where the line is no line of the notation. Claims compare runs of the machine with it. -/
def lineMeaning (nets : Table Signal) (l : Line) : Option (Table Signal) :=
  match sourceSignal nets l.src with
  | none => none
  | some sig =>
    match decodePort l.block sig, tableFind l.dst nets with
    | .ok i, none => some (tablePut l.dst (resultSignal i) nets)
    | _, _ => none

/-- The value of every net at the end of a program written in dependency order (R112). -/
def programMeaning (nets : Table Signal) : List Line → Option (Table Signal)
  | [] => some nets
  | l :: ls =>
    match lineMeaning nets l with
    | none => none
    | some nets' => programMeaning nets' ls

end Sys2Proof.Machine
end

