-- ==== Sys2Proof/Machine/Dispatch.lean ====
section
/-! DEFINITION. From an instruction to its meaning, one arm each. -/

namespace Sys2Proof.Machine

def exec (i : Instr) (s : State) : Host.Outcome State Fault Refusal :=
  match i with
  | .encode x => Sys2Proof.Machine.execEncode x s
  | .decode h => Sys2Proof.Machine.execDecode h s

end Sys2Proof.Machine
end

