-- ==== Sys2Proof/Machine/Step.lean ====
section
/-! DEFINITION. One step: the next evaluation of the program (R112). -/

namespace Sys2Proof.Machine

/-- Present the next line's word, evaluate, and give the line's net the result. Where every line has its
result the ports are held and nothing changes (R108, R112): DESIGN CHOICE (log entry 4), unsafe
for a claim about ports after the program's end. A refused line refuses the step: DESIGN CHOICE, safe (log entry
11). -/
def step (s : State) : Host.Outcome State Fault Refusal :=
  match fetch s with
  | .error r => .refused r
  | .ok none => .next s
  | .ok (some (l, i, s')) =>
    match exec i s' with
    | .next t => .next (deliver l t)
    | .fault r => .fault r
    | .refused r => .refused r

/-- The host loads the line that presents `w`. DESIGN CHOICE (log entry 3), safe for claims about every state. -/
def State.withFetchWord (s : State) (nbits w : Nat) : State :=
  s.presentNext nbits w

end Sys2Proof.Machine
end

