-- ==== Sys2Proof/Machine/Values.lean ====
section
/-! DEFINITION. What the patterns denote (R42, R43, R44). A reading aid: no rule of ENCODE or DECODE reads it,
and the spec marks parts of it as general knowledge (G2 to G4): PRESUMED (log entry 14), unsafe for the
statements that speak of classes or values. -/

namespace Sys2Proof.Machine

/-- The pattern classes of either format (R42, R43). -/
inductive PatternClass where
  | zero
  | subnormal
  | normal
  | infinity
  | nan
deriving DecidableEq, Repr

/-- The class by exponent and mantissa field, `emax` the all-ones exponent (R42, R43). -/
def patternClass (emax e m : Nat) : PatternClass :=
  if e = 0 then (if m = 0 then .zero else .subnormal)
  else if e = emax then (if m = 0 then .infinity else .nan)
  else .normal

/-- The class of an FP32 pattern (R42). -/
def fp32Class (x : Word32) : PatternClass :=
  patternClass Config.emax32 (fp32Exp x).toNat (fp32Mant x).toNat

/-- The class of an FP16 pattern (R43). -/
def fp16Class (h : Word16) : PatternClass :=
  patternClass Config.emax16 (fp16Exp h).toNat (fp16Mant h).toNat

/-- An FP32 NaN is quiet when mantissa bit 22 is set, else signalling (R42). -/
def fp32Quiet (x : Word32) : Bool :=
  fp32Class x == .nan && x.getLsbD 22

/-- The real number of a pattern with sign `s`, exponent field `e` and a mantissa field `m` of `p` bits (R44);
none for infinities and NaNs. -/
def patternValue (cls : PatternClass) (bias p s e m : Nat) : Option ℚ :=
  match cls with
  | .zero => some 0
  | .subnormal => some ((-1) ^ s * (2 : ℚ) ^ ((1 : ℤ) - (bias : ℤ)) * ((m : ℚ) / 2 ^ p))
  | .normal => some ((-1) ^ s * (2 : ℚ) ^ ((e : ℤ) - (bias : ℤ)) * (1 + (m : ℚ) / 2 ^ p))
  | .infinity => none
  | .nan => none

/-- The real number an FP32 pattern denotes (R44). -/
def fp32Value (x : Word32) : Option ℚ :=
  patternValue (fp32Class x) Config.bias32 Config.mw32 (fp32Sign x).toNat (fp32Exp x).toNat (fp32Mant x).toNat

/-- The real number an FP16 pattern denotes (R44). -/
def fp16Value (h : Word16) : Option ℚ :=
  patternValue (fp16Class h) Config.bias16 Config.mw16 (fp16Sign h).toNat (fp16Exp h).toNat (fp16Mant h).toNat

end Sys2Proof.Machine
end

