-- ==== Sys2Proof/Safety.lean ====
section
/-! DEFINITION. What claims about runs speak of. -/

namespace Sys2Proof

/-- The step answers a next state. -/
def Steps (s : Machine.State) : Prop :=
  ∃ t, Machine.step s = .next t

/-- Every line of the program has its result (R112). -/
def Ended (s : Machine.State) : Prop :=
  s.program = []

/-- Every net that has a value is two-valued, so that no line can present an `X` or a `Z` (R108). -/
def NetsTwoValued (s : Machine.State) : Prop :=
  ∀ n sig, Machine.tableFind n s.nets = some sig → signalTwoValued sig = true

/-- Single assignment (R40): the lines that have no result yet assign different nets, none of which has a
value. -/
def SingleAssignment (s : Machine.State) : Prop :=
  (s.program.map Line.dst).Nodup ∧ ∀ l ∈ s.program, Machine.tableFind l.dst s.nets = none

/-- The program runs from this state (R112): in some order of its lines every source is known, two-valued and
of the right width before it is used, and every net is assigned once; in that order it gives the nets `nets`
their values. -/
def ProgramGives (s : Machine.State) (nets : Table Signal) : Prop :=
  ∃ lines : List Line, lines.Perm s.program ∧ Machine.programMeaning s.nets lines = some nets

end Sys2Proof
end

