-- ==== Sys2Proof/Certificates/Slice0/Obligations.lean ====
section
/-! DEFINITION. The statements for the provers, from the numbered rules of spec/. In all of them a state is any
state, not only one a run reaches; where a premise rules states out, an invariant statement stands beside it. -/

open Sys2Proof Sys2Proof.Machine

/-! ### Encoding -/

/-- Decode and encode agree (R32, R33, R34, R36): the signal that presents an operation to its block decodes to
that operation, at every value of every operand bit. -/
def Obligations.EncodedInstrDecodesBack : Prop :=
  ∀ i : Instr, i.wellFormed = true → decodePort (encodeInstr i).1 (encodeInstr i).2 = .ok i

/-- A signal that decodes at a block is the encoding of what it decodes to: no two signals of a block stand for
one operation (R32, R38). -/
def Obligations.DecodedSignalIsTheEncoding : Prop :=
  ∀ (b : Block) (sig : Signal) (i : Instr), decodePort b sig = .ok i → encodeInstr i = (b, sig)

/-- A block accepts exactly the two-valued signals as wide as its input port (R114, R35, R108). -/
def Obligations.PortAcceptsExactlyTwoValuedOperands : Prop :=
  ∀ (b : Block) (sig : Signal), (∃ i, decodePort b sig = .ok i) ↔ signalWellFormed b sig = true

/-- R38: no operand pattern is illegal. Every word at a block's port selects its operation, and the operation
completes with a result from every state. -/
def Obligations.EveryOperandWordIsLegal : Prop :=
  (∀ (x : Word32) (s : State), decodePort .encoder (levelsOf 32 x.toNat) = .ok (.encode x) ∧
    ∃ t, exec (.encode x) s = .next t ∧ t.f16O s.wired = encodeHalf x) ∧
  (∀ (h : Word16) (s : State), decodePort .decoder (levelsOf 16 h.toNat) = .ok (.decode h) ∧
    ∃ t, exec (.decode h) s = .next t ∧ t.f32O s.wired = decodeHalf h)

/-- A few words of the two rows of the opcode table, and a width that is no row (R33, R34, R46). -/
def Obligations.TableWordsDecodeToTheirRows : Prop :=
  decodeTableWord 32 0x3F800000 = some (.encode 0x3F800000#32) ∧
  decodeTableWord 32 0xB8D1B717 = some (.encode 0xB8D1B717#32) ∧
  decodeTableWord 16 0x3C00 = some (.decode 0x3C00#16) ∧
  decodeTableWord 16 0xFC01 = some (.decode 0xFC01#16) ∧
  decodeTableWord 24 0x3C00 = none

/-- The layouts of R33 and R34: a pattern is its fields, the most significant first. -/
def Obligations.PatternsAreTheirFields : Prop :=
  (∀ x : Word32, x = fp32Sign x ++ fp32Exp x ++ fp32Mant x ∧ fp32Mant x = fp32Upper x ++ fp32Lower x) ∧
  (∀ h : Word16, h = fp16Sign h ++ fp16Exp h ++ fp16Mant h)

/-! ### ENCODE -/

/-- R52, R85: the rebiased exponent is exact and signed, and nine bits of two's complement hold it. -/
def Obligations.RebiasedExponentIsExact : Prop :=
  ∀ x : Word32, encRebiased x = ((fp32Exp x).toNat : Int) - 112 ∧ -112 ≤ encRebiased x ∧ encRebiased x ≤ 143 ∧
    (BitVec.ofInt 9 (encRebiased x)).toInt = encRebiased x

/-- R54: the underflow class, its members and its result. Members are given as patterns (R9): the zeros and the
subnormals have exponent field 0, and the normals below 2^-14 are those up to 0x387FFFFF; the class in terms of
values is `EncodeClassesByMagnitude`. -/
def Obligations.EncodeUnderflowGivesSignedZero : Prop :=
  (∀ (x : Word32) (s : State), encRebiased x ≤ 0 → ∃ t, exec (.encode x) s = .next t ∧
    t.f16O s.wired = if x.getLsbD 31 then 0x8000#16 else 0x0000#16) ∧
  (∀ x : Word32, encRebiased x ≤ 0 ↔ (fp32Exp x).toNat ≤ 112) ∧
  (∀ x : Word32, (fp32Exp x).toNat = 0 → encRebiased x ≤ 0) ∧
  (∀ x : Word32, encRebiased x ≤ 0 ↔ x.toNat % 2 ^ 31 ≤ 0x387FFFFF)

/-- R55: the overflow class, its members and its result; the corrected threshold (90_conflicts.md C1). Members are
given as patterns (R9): the infinities and the NaNs have exponent field 255, and the finite operands of magnitude
65536 or more begin at 0x47800000; the class in terms of values is `EncodeClassesByMagnitude`. -/
def Obligations.EncodeOverflowGivesSignedInfinity : Prop :=
  (∀ (x : Word32) (s : State), 31 ≤ encRebiased x → ∃ t, exec (.encode x) s = .next t ∧
    t.f16O s.wired = if x.getLsbD 31 then 0xFC00#16 else 0x7C00#16) ∧
  (∀ x : Word32, 31 ≤ encRebiased x ↔ 143 ≤ (fp32Exp x).toNat) ∧
  (∀ x : Word32, (fp32Exp x).toNat = 255 → 31 ≤ encRebiased x) ∧
  (∀ x : Word32, 31 ≤ encRebiased x ↔ 0x47800000 ≤ x.toNat % 2 ^ 31) ∧
  encodeHalf 0x477FF000#32 = 0x7BFF#16

/-- The classes of ENCODE by the magnitude of the value an operand denotes. It rests on the value formulas of R44
(PRESUMED, log entry 14). -/
def Obligations.EncodeClassesByMagnitude : Prop :=
  (∀ (x : Word32) (v : ℚ), fp32Value x = some v → (encRebiased x ≤ 0 ↔ |v| < (2 : ℚ) ^ (-14 : ℤ))) ∧
  (∀ (x : Word32) (v : ℚ), fp32Value x = some v → (31 ≤ encRebiased x ↔ 65536 ≤ |v|)) ∧
  (∀ x : Word32, fp32Value x = none → 31 ≤ encRebiased x)

/-- R56: the normal class and the fields of its result. -/
def Obligations.EncodeNormalKeepsSignExponentAndUpperMantissa : Prop :=
  (∀ (x : Word32) (s : State), 1 ≤ encRebiased x → encRebiased x ≤ 30 → ∃ t, exec (.encode x) s = .next t ∧
    fp16Sign (t.f16O s.wired) = fp32Sign x ∧ ((fp16Exp (t.f16O s.wired)).toNat : Int) = encRebiased x ∧
    fp16Mant (t.f16O s.wired) = fp32Upper x ∧
    0x0400 ≤ (t.f16O s.wired).toNat % 2 ^ 15 ∧ (t.f16O s.wired).toNat % 2 ^ 15 ≤ 0x7BFF) ∧
  (∀ x : Word32, (1 ≤ encRebiased x ∧ encRebiased x ≤ 30) ↔
    (113 ≤ (fp32Exp x).toNat ∧ (fp32Exp x).toNat ≤ 142))

/-- R53: the thirteen low mantissa bits never influence the result, whatever the class. -/
def Obligations.EncodeIgnoresLowerMantissa : Prop :=
  ∀ x y : Word32, fp32Sign x = fp32Sign y → fp32Exp x = fp32Exp y → fp32Upper x = fp32Upper y →
    encodeHalf x = encodeHalf y

/-- R58: the formulation on bit vectors alone agrees with the pseudocode of R50 on every operand. -/
def Obligations.EncodeAgreesWithUnsignedForm : Prop :=
  ∀ x : Word32, encodeHalf x = encodeHalfUnsigned x

/-- ENCODE in terms of the values of R44 (R59). It rests on the value formulas (PRESUMED, log entry 14). -/
def Obligations.EncodeInTermsOfValues : Prop :=
  (∀ (x : Word32) (v : ℚ), fp32Value x = some v → |v| < (2 : ℚ) ^ (-14 : ℤ) →
    fp16Class (encodeHalf x) = .zero ∧ fp16Sign (encodeHalf x) = fp32Sign x) ∧
  (∀ (x : Word32) (v : ℚ), fp32Value x = some v → (2 : ℚ) ^ (-14 : ℤ) ≤ |v| → |v| < 65536 →
    fp16Class (encodeHalf x) = .normal ∧ fp16Sign (encodeHalf x) = fp32Sign x ∧
    ∃ w, fp16Value (encodeHalf x) = some w ∧ |w| ≤ |v| ∧
      ∀ (h : Word16) (u : ℚ), fp16Value h = some u → |u| ≤ |v| → |u| ≤ |w|) ∧
  (∀ (x : Word32) (v : ℚ), fp32Value x = some v → 65536 ≤ |v| →
    fp16Class (encodeHalf x) = .infinity ∧ fp16Sign (encodeHalf x) = fp32Sign x) ∧
  (∀ x : Word32, fp32Class x = .infinity ∨ fp32Class x = .nan →
    fp16Class (encodeHalf x) = .infinity ∧ fp16Sign (encodeHalf x) = fp32Sign x)

/-- The effect and the frame of ENCODE (R50, R10, R26): from every state it completes with the word on `f32_i`
of the wired instance and its conversion on `f16_o`; every other port of every instance, every net, the program
and the caller's choices are unchanged. -/
def Obligations.EncodeCompletesAndFrames : Prop :=
  ∀ (x : Word32) (s : State), ∃ t, exec (.encode x) s = .next t ∧
    t.f32I s.wired = x ∧ t.f16O s.wired = encodeHalf x ∧
    (∀ k, k ≠ s.wired → t.f32I k = s.f32I k ∧ t.f16O k = s.f16O k) ∧
    (∀ k, t.f16I k = s.f16I k ∧ t.f32O k = s.f32O k) ∧
    t.nets = s.nets ∧ t.program = s.program ∧ t.schedule = s.schedule ∧ t.wired = s.wired

/-! ### DECODE -/

/-- R64: the zero-exponent class; a signed zero, or exponent field 0 over the operand's mantissa, unscaled. What
the result denotes is in `DecodeInTermsOfValues`. -/
def Obligations.DecodeZeroExponentPassesMantissaUnscaled : Prop :=
  (∀ (h : Word16) (s : State), (fp16Exp h).toNat = 0 → ∃ t, exec (.decode h) s = .next t ∧
    t.f32O s.wired = fp16Sign h ++ 0#8 ++ fp16Mant h ++ 0#13) ∧
  (∀ h : Word16, (fp16Exp h).toNat = 0 → (fp16Mant h).toNat = 0 →
    decodeHalf h = if h.getLsbD 15 then 0x80000000#32 else 0x00000000#32) ∧
  (∀ h : Word16, (fp16Exp h).toNat = 0 → (fp16Mant h).toNat ≠ 0 →
    (fp32Exp (decodeHalf h)).toNat = 0 ∧ (fp32Mant (decodeHalf h)).toNat = (fp16Mant h).toNat * 2 ^ 13 ∧
    (fp32Mant (decodeHalf h)).toNat ≠ 0)

/-- R65: the all-ones class; the infinity of the operand's sign, or exponent field 255 over the payload, with the
quiet bit copied. -/
def Obligations.DecodeAllOnesGivesInfinityOrNaN : Prop :=
  (∀ (h : Word16) (s : State), (fp16Exp h).toNat = 31 → ∃ t, exec (.decode h) s = .next t ∧
    t.f32O s.wired = fp16Sign h ++ 0xFF#8 ++ fp16Mant h ++ 0#13) ∧
  (∀ h : Word16, (fp16Exp h).toNat = 31 → (fp16Mant h).toNat = 0 →
    decodeHalf h = if h.getLsbD 15 then 0xFF800000#32 else 0x7F800000#32) ∧
  (∀ h : Word16, (fp16Exp h).toNat = 31 → (fp16Mant h).toNat ≠ 0 →
    (fp32Exp (decodeHalf h)).toNat = 255 ∧ (fp32Mant (decodeHalf h)).toNat = (fp16Mant h).toNat * 2 ^ 13 ∧
    (fp32Mant (decodeHalf h)).toNat ≠ 0 ∧ (decodeHalf h).getLsbD 22 = h.getLsbD 9)

/-- R66: the normal class; the exponent rebiased by +112. That it is exact in value is in
`DecodeInTermsOfValues`. -/
def Obligations.DecodeNormalRebiasesExponent : Prop :=
  ∀ (h : Word16) (s : State), 1 ≤ (fp16Exp h).toNat → (fp16Exp h).toNat ≤ 30 →
    ∃ t, exec (.decode h) s = .next t ∧
      fp32Sign (t.f32O s.wired) = fp16Sign h ∧
      (fp32Exp (t.f32O s.wired)).toNat = (fp16Exp h).toNat + 112 ∧
      113 ≤ (fp32Exp (t.f32O s.wired)).toNat ∧ (fp32Exp (t.f32O s.wired)).toNat ≤ 142 ∧
      fp32Mant (t.f32O s.wired) = fp16Mant h ++ 0#13

/-- R68: the formulation by concatenation agrees with the pseudocode of R60 on every operand. -/
def Obligations.DecodeAgreesWithConcatenationForm : Prop :=
  ∀ h : Word16, decodeHalf h = decodeHalfConcat h

/-- DECODE in terms of the values of R44 (R69, and the values R64 and R66 infer): exact on everything but the FP16
subnormals. It rests on the value formulas (PRESUMED, log entry 14). -/
def Obligations.DecodeInTermsOfValues : Prop :=
  (∀ h : Word16, fp32Class (decodeHalf h) = fp16Class h ∧ fp32Sign (decodeHalf h) = fp16Sign h) ∧
  (∀ h : Word16, fp32Upper (decodeHalf h) = fp16Mant h ∧ fp32Lower (decodeHalf h) = 0#13) ∧
  (∀ h : Word16, fp32Value (decodeHalf h) = fp16Value h ↔ fp16Class h ≠ .subnormal) ∧
  (∀ h : Word16, fp16Class h = .subnormal →
    fp16Value h = some ((-1) ^ (fp16Sign h).toNat * ((fp16Mant h).toNat * (2 : ℚ) ^ (-24 : ℤ))) ∧
    fp32Value (decodeHalf h) =
      some ((-1) ^ (fp16Sign h).toNat * ((fp16Mant h).toNat * (2 : ℚ) ^ (-136 : ℤ))))

/-- The effect and the frame of DECODE (R60, R10, R26), as for ENCODE. -/
def Obligations.DecodeCompletesAndFrames : Prop :=
  ∀ (h : Word16) (s : State), ∃ t, exec (.decode h) s = .next t ∧
    t.f16I s.wired = h ∧ t.f32O s.wired = decodeHalf h ∧
    (∀ k, k ≠ s.wired → t.f16I k = s.f16I k ∧ t.f32O k = s.f32O k) ∧
    (∀ k, t.f32I k = s.f32I k ∧ t.f16O k = s.f16O k) ∧
    t.nets = s.nets ∧ t.program = s.program ∧ t.schedule = s.schedule ∧ t.wired = s.wired

/-! ### The laws of the two operations -/

/-- R51, R61: the sign terms, and the sign is copied for every operand, whatever its class. -/
def Obligations.SignIsCopiedInEveryClass : Prop :=
  (∀ x : Word32, encSignTerm x = if x.getLsbD 31 then 0x8000#16 else 0x0000#16) ∧
  (∀ x : Word32, (encodeHalf x).getLsbD 15 = x.getLsbD 31) ∧
  (∀ h : Word16, decSignTerm h = if h.getLsbD 15 then 0x80000000#32 else 0x00000000#32) ∧
  (∀ h : Word16, (decodeHalf h).getLsbD 31 = h.getLsbD 15)

/-- R70: DECODE after ENCODE, by class, and exactly when it is the identity. -/
def Obligations.DecodeAfterEncodeByClass : Prop :=
  (∀ x : Word32, (fp32Exp x).toNat ≤ 112 → decodeHalf (encodeHalf x) = x &&& 0x80000000#32) ∧
  (∀ x : Word32, 113 ≤ (fp32Exp x).toNat → (fp32Exp x).toNat ≤ 142 →
    decodeHalf (encodeHalf x) = x &&& 0xFFFFE000#32) ∧
  (∀ x : Word32, 143 ≤ (fp32Exp x).toNat →
    decodeHalf (encodeHalf x) = (x &&& 0x80000000#32) ||| 0x7F800000#32) ∧
  (∀ x : Word32, decodeHalf (encodeHalf x) = x ↔
    (113 ≤ (fp32Exp x).toNat ∧ (fp32Exp x).toNat ≤ 142 ∧ fp32Lower x = 0#13) ∨
    fp32Class x = .zero ∨ fp32Class x = .infinity)

/-- The error of a round trip of a normal-class operand (R71), exactly, one-sided toward zero. It rests on the value
formulas (PRESUMED, log entry 14). -/
def Obligations.TruncationErrorIsBounded : Prop :=
  ∀ x : Word32, 113 ≤ (fp32Exp x).toNat → (fp32Exp x).toNat ≤ 142 →
    ∃ v w : ℚ, fp32Value x = some v ∧ fp32Value (decodeHalf (encodeHalf x)) = some w ∧
      (0 < v ↔ 0 < w) ∧ (v < 0 ↔ w < 0) ∧ |w| ≤ |v| ∧
      |v| - |w| = (fp32Lower x).toNat * (2 : ℚ) ^ (((fp32Exp x).toNat : ℤ) - 150) ∧
      |v| - |w| < (2 : ℚ) ^ (((fp32Exp x).toNat : ℤ) - 137) ∧
      (|v| - |w|) / |v| < (2 : ℚ) ^ (-10 : ℤ)

/-- R72: flipping the operand's sign bit flips the result's sign bit and nothing else. -/
def Obligations.SignSymmetry : Prop :=
  (∀ x : Word32, encodeHalf (x ^^^ 0x80000000#32) = encodeHalf x ^^^ 0x8000#16) ∧
  (∀ h : Word16, decodeHalf (h ^^^ 0x8000#16) = decodeHalf h ^^^ 0x80000000#32)

/-- R73: the result is an infinity exactly for the operands of the overflow class. -/
def Obligations.OverflowClampExactly : Prop :=
  (∀ x : Word32, encodeHalf x &&& 0x7FFF#16 = 0x7C00#16 ↔ 143 ≤ (fp32Exp x).toNat) ∧
  (∀ x : Word32, 143 ≤ (fp32Exp x).toNat →
    encodeHalf x = if x.getLsbD 31 then 0xFC00#16 else 0x7C00#16) ∧
  (∀ x : Word32, 0x477FF000 ≤ x.toNat → x.toNat ≤ 0x477FFFFF →
    encRebiased x = 30 ∧ encodeHalf x = 0x7BFF#16)

/-- R74: the result is a zero exactly for the operands of the underflow class. -/
def Obligations.UnderflowFlushExactly : Prop :=
  (∀ x : Word32, encodeHalf x &&& 0x7FFF#16 = 0x0000#16 ↔ (fp32Exp x).toNat ≤ 112) ∧
  (∀ x : Word32, (fp32Exp x).toNat ≤ 112 →
    encodeHalf x = if x.getLsbD 31 then 0x8000#16 else 0x0000#16)

/-- R75: DECODE of the infinities and the zeros. -/
def Obligations.DecodeOfSpecialPatterns : Prop :=
  decodeHalf 0x7C00#16 = 0x7F800000#32 ∧ decodeHalf 0xFC00#16 = 0xFF800000#32 ∧
  decodeHalf 0x0000#16 = 0x00000000#32 ∧ decodeHalf 0x8000#16 = 0x80000000#32

/-- R76: the value 1.0, both ways. -/
def Obligations.OneConvertsExactly : Prop :=
  encodeHalf 0x3F800000#32 = 0x3C00#16 ∧ decodeHalf 0x3C00#16 = 0x3F800000#32

/-- The table of R77: ENCODE after DECODE, by class, and exactly when it is the identity. -/
def Obligations.EncodeAfterDecodeByClass : Prop :=
  (∀ h : Word16, 1 ≤ (fp16Exp h).toNat → (fp16Exp h).toNat ≤ 30 → encodeHalf (decodeHalf h) = h) ∧
  (∀ h : Word16, (fp16Exp h).toNat = 0 → encodeHalf (decodeHalf h) = h &&& 0x8000#16) ∧
  (∀ h : Word16, (fp16Exp h).toNat = 31 →
    encodeHalf (decodeHalf h) = (h &&& 0x8000#16) ||| 0x7C00#16) ∧
  (∀ h : Word16, encodeHalf (decodeHalf h) = h ↔ fp16Class h ≠ .subnormal ∧ fp16Class h ≠ .nan)

/-- The count of R77: the identity holds for 61444 of the 65536 patterns, and 2046 are FP16 subnormals and 2046
FP16 NaNs. -/
def Obligations.EncodeAfterDecodeCounts : Prop :=
  (List.range 65536).countP
      (fun n => encodeHalf (decodeHalf (BitVec.ofNat 16 n)) == BitVec.ofNat 16 n) = 61444 ∧
  (List.range 65536).countP (fun n => fp16Class (BitVec.ofNat 16 n) == .subnormal) = 2046 ∧
  (List.range 65536).countP (fun n => fp16Class (BitVec.ofNat 16 n) == .nan) = 2046

/-- R78: an ENCODE result is left fixed by a round trip; the dual holds exactly for the patterns of R77. -/
def Obligations.ProjectionLaw : Prop :=
  (∀ x : Word32, encodeHalf (decodeHalf (encodeHalf x)) = encodeHalf x) ∧
  (∀ h : Word16, decodeHalf (encodeHalf (decodeHalf h)) = decodeHalf h ↔ encodeHalf (decodeHalf h) = h) ∧
  (∀ h : Word16, fp16Class h = .subnormal ∨ fp16Class h = .nan →
    decodeHalf (encodeHalf (decodeHalf h)) ≠ decodeHalf h)

/-- R79: order on the bits below the sign, injectivity of DECODE, and the images of both operations. -/
def Obligations.OrderAndImages : Prop :=
  (∀ x y : Word32, x.toNat % 2 ^ 31 ≤ y.toNat % 2 ^ 31 →
    (encodeHalf x).toNat % 2 ^ 15 ≤ (encodeHalf y).toNat % 2 ^ 15) ∧
  (∀ g h : Word16, g.toNat % 2 ^ 15 < h.toNat % 2 ^ 15 →
    (decodeHalf g).toNat % 2 ^ 31 < (decodeHalf h).toNat % 2 ^ 31) ∧
  (∀ g h : Word16, decodeHalf g = decodeHalf h → g = h) ∧
  (∀ h : Word16, (∃ x, encodeHalf x = h) ↔ fp16Class h ≠ .subnormal ∧ fp16Class h ≠ .nan) ∧
  (∀ y : Word32, (∃ h, decodeHalf h = y) ↔ fp32Lower y = 0#13 ∧
    ((fp32Exp y).toNat = 0 ∨ (113 ≤ (fp32Exp y).toNat ∧ (fp32Exp y).toNat ≤ 142) ∨ (fp32Exp y).toNat = 255))

/-! ### The machine: evaluations, instances, nets and programs -/

/-- R57, R67, R90: neither operation has a failure path; from every state it answers a next state. -/
def Obligations.NoOperationStops : Prop :=
  ∀ (i : Instr) (s : State), ∃ t, exec i s = .next t

/-- R10, R26 (a): the result word depends on the operand alone: not on earlier inputs, not on the other module,
not on the instance, not on what the caller has left to do. -/
def Obligations.ResultDependsOnOperandAlone : Prop :=
  (∀ (x : Word32) (s s' t t' : State), exec (.encode x) s = .next t → exec (.encode x) s' = .next t' →
    t.f16O s.wired = t'.f16O s'.wired) ∧
  (∀ (h : Word16) (s s' t t' : State), exec (.decode h) s = .next t → exec (.decode h) s' = .next t' →
    t.f32O s.wired = t'.f32O s'.wired)

/-- R26 (b), (c), R100: two evaluations on different instances, or on different blocks, leave every port of every
instance the same in either order. The premise is the canonical form, which `StepKeepsTablesCanonical` states that every step
keeps. That instances are numbered is the model's choice (log entry 10). -/
def Obligations.InstancesAreIndependent : Prop :=
  ∀ (i j : Instr) (k l : Nat) (s a b c d : State), s.wf → (i.block ≠ j.block ∨ k ≠ l) →
    exec i { s with wired := k } = .next a → exec j { a with wired := l } = .next b →
    exec j { s with wired := l } = .next c → exec i { c with wired := k } = .next d →
    b = { d with wired := l }

/-- A step runs the decoded instruction: when the next line's source is known and decodes to `i` at its block,
and its net is free, the step is `exec i` in the state in which the line is launched, and then the line's net
gets the word on the output port (one step without time: DEDUCED, log entries 5 and 16). -/
def Obligations.StepRunsTheDecodedInstr : Prop :=
  ∀ (s : State) (l : Line) (rest : List Line) (sig : Signal) (i : Instr),
    nextLine s = some (l, rest) → tableFind l.dst s.nets = none → sourceSignal s.nets l.src = some sig →
    decodePort l.block sig = .ok i →
    step s = (match exec i (s.launch l rest) with
      | .next t => .next (deliver l t)
      | .fault r => .fault r
      | .refused r => .refused r)

/-- R40, R112, R26, R100: such a step completes, and this is all it does. The line's net holds the operation's result
word and every other net what it held; the line is off the program and the other lines stand in their order; the
choice is used up; the wiring selects the line's instance; the port of that instance holds the line's word and its
output the conversion, and every other port of every instance of both blocks, that of the other block's instance of
the same number among them, is what it was. That the net gets its result in the same step is DEDUCED (log entry 16),
the choice of the line the model's (log entry 8), the numbers of instances too (log entry 10). -/
def Obligations.StepGivesTheNetItsResult : Prop :=
  ∀ (s : State) (l : Line) (rest : List Line) (sig : Signal) (i : Instr),
    nextLine s = some (l, rest) → tableFind l.dst s.nets = none → sourceSignal s.nets l.src = some sig →
    decodePort l.block sig = .ok i →
    ∃ t, step s = .next t ∧ i.block = l.block ∧
      tableFind l.dst t.nets = some (resultSignal i) ∧
      (∀ n, n ≠ l.dst → tableFind n t.nets = tableFind n s.nets) ∧
      t.program = rest ∧ (l :: rest).Perm s.program ∧
      (∃ before after, s.program = before ++ l :: after ∧ rest = before ++ after) ∧
      t.schedule = s.schedule.tail ∧ t.wired = l.unit ∧
      (match i with
        | .encode x =>
          t.f32I l.unit = x ∧ t.f16O l.unit = encodeHalf x ∧
          (∀ k, k ≠ l.unit → t.f32I k = s.f32I k ∧ t.f16O k = s.f16O k) ∧
          (∀ k, t.f16I k = s.f16I k ∧ t.f32O k = s.f32O k)
        | .decode h =>
          t.f16I l.unit = h ∧ t.f32O l.unit = decodeHalf h ∧
          (∀ k, k ≠ l.unit → t.f16I k = s.f16I k ∧ t.f32O k = s.f32O k) ∧
          (∀ k, t.f32I k = s.f32I k ∧ t.f16O k = s.f16O k))

/-- R108, D6, R35: a line whose signal has an `X` or a `Z`, or the wrong width, is refused by name: how the
refusal shows is the model's (DEDUCED, log entries 6 and 9; the whole step is refused, log entry 11). -/
def Obligations.UnusableSignalIsRefused : Prop :=
  ∀ (s : State) (l : Line) (rest : List Line) (sig : Signal),
    nextLine s = some (l, rest) → tableFind l.dst s.nets = none → sourceSignal s.nets l.src = some sig →
    (sig.length = l.block.operandWidth → signalTwoValued sig = false →
      step s = .refused .operandNotTwoValued) ∧
    (sig.length ≠ l.block.operandWidth →
      step s = .refused (.operandWidth sig.length l.block.operandWidth))

/-- R40, R112: a second assignment of a net is refused, and so is a program none of whose lines is ready,
a literal that does not fit its width among the sources that are not: the refusals are the model's (DEDUCED, log
entry 9). -/
def Obligations.UnusableProgramIsRefused : Prop :=
  (∀ (s : State) (l : Line) (rest : List Line) (sig : Signal),
    nextLine s = some (l, rest) → tableFind l.dst s.nets = some sig →
    step s = .refused (.netAssignedTwice l.dst)) ∧
  (∀ s : State, s.program ≠ [] → (∀ l ∈ s.program, sourceSignal s.nets l.src = none) →
    step s = .refused .sourceNeverKnown) ∧
  (∀ (nets : Table Signal) (w v : Nat), sourceSignal nets (.literal w v) = none ↔ 2 ^ w ≤ v)

/-- When every line has its result (R112) nothing changes any more: the model's choice (log entry 4). -/
def Obligations.EndedRunIsHeld : Prop :=
  ∀ s : State, s.program = [] → step s = .next s

/-- The one-line program that presents a word of either row runs as the very next step, from every state: the
word is on the input port, its conversion on the output port and in a net that had no value. How a program comes
to be loaded is the model's choice (log entry 3). -/
def Obligations.LoadedWordRunsNext : Prop :=
  (∀ (s : State) (x : Word32), ∃ t, step (s.withFetchWord 32 x.toNat) = .next t ∧
    t.f32I s.wired = x ∧ t.f16O s.wired = encodeHalf x ∧ tableFind (freshName s) s.nets = none ∧
    tableFind (freshName s) t.nets = some (levelsOf 16 (encodeHalf x).toNat) ∧ t.program = s.program) ∧
  (∀ (s : State) (h : Word16), ∃ t, step (s.withFetchWord 16 h.toNat) = .next t ∧
    t.f16I s.wired = h ∧ t.f32O s.wired = decodeHalf h ∧ tableFind (freshName s) s.nets = none ∧
    tableFind (freshName s) t.nets = some (levelsOf 32 (decodeHalf h).toNat) ∧ t.program = s.program)

/-- R19, R104: right after reset no word has been presented and nothing is loaded, so the invariants below hold
and a step changes nothing. That no program is loaded is the model's choice (log entry 3). -/
def Obligations.ResetMeetsTheInvariants : Prop :=
  State.reset.wf ∧ SingleAssignment State.reset ∧ NetsTwoValued State.reset ∧ Ended State.reset ∧
    step State.reset = .next State.reset

/-- Every step keeps every table in canonical form. -/
def Obligations.StepKeepsTablesCanonical : Prop :=
  ∀ s t : State, s.wf → step s = .next t → t.wf

/-- R40: every step keeps single assignment: the lines left assign different nets, none of which has a value. -/
def Obligations.StepKeepsSingleAssignment : Prop :=
  ∀ s t : State, SingleAssignment s → step s = .next t → SingleAssignment t

/-- R35, R108: every result is two-valued, so a program over two-valued nets never presents an `X` or a `Z`. -/
def Obligations.StepKeepsNetsTwoValued : Prop :=
  ∀ s t : State, NetsTwoValued s → step s = .next t → NetsTwoValued t

/-- R40: a net that has a value keeps it. -/
def Obligations.StepKeepsAssignedNets : Prop :=
  ∀ (s t : State) (n : Nat) (sig : Signal), step s = .next t → tableFind n s.nets = some sig →
    tableFind n t.nets = some sig

/-- A program written in dependency order with widths that fit and every net assigned once (R40, R112) has a
meaning: every net gets a value. -/
def Obligations.WellFormedProgramHasMeaning : Prop :=
  ∀ (nets : Table Signal) (lines : List Line), programWellFormed (knownNets nets) lines = true →
    ∃ nets', programMeaning nets lines = some nets'

/-- The headline: R26 (b), R31, R40, R112. Whatever the caller's choices among the ready lines, and in whatever
order the lines are written, a program that has a meaning in some dependency order ends after one step a line,
with every net at the value that meaning gives it. How an order is chosen is the model's (DESIGN CHOICE, log entry
8). -/
def Obligations.EveryScheduleGivesTheProgramsMeaning : Prop :=
  ∀ (s : State) (nets : Table Signal), tableSorted s.nets → ProgramGives s nets →
    ∃ t, Sys2Proof.core.run s.program.length s = .next t ∧ Ended t ∧ t.nets = nets
end

