-- ==== Sys2Proof/Laws/Fields.lean ====
section
/-! SUPPORT. The fields and the two results as plain numbers, so that the laws of the operations are linear
arithmetic over quotients and remainders by powers of two. -/

namespace Sys2Proof.Machine

theorem fp32Sign_toNat (x : Word32) : (fp32Sign x).toNat = x.toNat / 2147483648 := by
  have := x.isLt
  simp [fp32Sign, BitVec.extractLsb'_toNat, Nat.shiftRight_eq_div_pow]
  omega

theorem fp32Exp_toNat (x : Word32) : (fp32Exp x).toNat = x.toNat / 8388608 % 256 := by
  simp [fp32Exp, BitVec.extractLsb'_toNat, Nat.shiftRight_eq_div_pow]

theorem fp32Mant_toNat (x : Word32) : (fp32Mant x).toNat = x.toNat % 8388608 := by
  simp [fp32Mant, BitVec.extractLsb'_toNat]

theorem fp32Upper_toNat (x : Word32) : (fp32Upper x).toNat = x.toNat / 8192 % 1024 := by
  simp [fp32Upper, BitVec.extractLsb'_toNat, Nat.shiftRight_eq_div_pow]

theorem fp32Lower_toNat (x : Word32) : (fp32Lower x).toNat = x.toNat % 8192 := by
  simp [fp32Lower, BitVec.extractLsb'_toNat]

theorem fp16Sign_toNat (h : Word16) : (fp16Sign h).toNat = h.toNat / 32768 := by
  have := h.isLt
  simp [fp16Sign, BitVec.extractLsb'_toNat, Nat.shiftRight_eq_div_pow]
  omega

theorem fp16Exp_toNat (h : Word16) : (fp16Exp h).toNat = h.toNat / 1024 % 32 := by
  simp [fp16Exp, BitVec.extractLsb'_toNat, Nat.shiftRight_eq_div_pow]

theorem fp16Mant_toNat (h : Word16) : (fp16Mant h).toNat = h.toNat % 1024 := by
  simp [fp16Mant, BitVec.extractLsb'_toNat]

/-- Masking one bit of a number. -/
theorem land_two_pow (n k : Nat) : n &&& 2 ^ k = n / 2 ^ k % 2 * 2 ^ k := by
  rw [Nat.and_two_pow, Nat.testBit_eq_decide_div_mod_eq]
  rcases Nat.mod_two_eq_zero_or_one (n / 2 ^ k) with h | h <;> simp [h]

theorem encSignTerm_toNat (x : Word32) : (encSignTerm x).toNat = x.toNat / 2147483648 * 32768 := by
  have hlt := x.isLt
  have h : (x.toNat / 65536) &&& 32768 = x.toNat / 65536 / 32768 % 2 * 32768 := land_two_pow _ 15
  simp only [encSignTerm, Config.sign16Mask, BitVec.toNat_setWidth, BitVec.toNat_and, BitVec.toNat_ushiftRight,
    Nat.shiftRight_eq_div_pow, BitVec.toNat_ofNat, Nat.reducePow, Nat.reduceMod, h]
  omega

theorem encMantissa_eq (x : Word32) : encMantissa x = x.toNat / 8192 % 1024 := by
  have h : (x.toNat / 8192) &&& 1023 = x.toNat / 8192 % 1024 := Nat.and_two_pow_sub_one_eq_mod _ 10
  simp only [encMantissa, Config.mshift, Config.mant16Mask, BitVec.toNat_and, BitVec.toNat_ushiftRight,
    Nat.shiftRight_eq_div_pow, BitVec.toNat_ofNat, Nat.reducePow, Nat.reduceMod, h]

theorem encRebiased_eq (x : Word32) : encRebiased x = ((x.toNat / 8388608 % 256 : Nat) : Int) - 112 := by
  rw [encRebiased, fp32Exp_toNat]
  rfl

/-- The class of an ENCODE operand by its exponent field (R45). -/
theorem encClass_eq (x : Word32) :
    encClass x = if x.toNat / 8388608 % 256 ≤ 112 then .underflow
      else if 143 ≤ x.toNat / 8388608 % 256 then .overflow else .normal := by
  have h1 : encRebiased x ≤ 0 ↔ x.toNat / 8388608 % 256 ≤ 112 := by rw [encRebiased_eq]; omega
  have h2 : encRebiased x ≥ ((31 : Nat) : Int) ↔ 143 ≤ x.toNat / 8388608 % 256 := by
    rw [encRebiased_eq]; omega
  simp only [encClass, Config.emax16, h1, h2]

/-- The exponent field of the ENCODE result by the operand's (R45). -/
theorem encExpOut_eq (x : Word32) :
    encExpOut x = if x.toNat / 8388608 % 256 ≤ 112 then 0
      else if 143 ≤ x.toNat / 8388608 % 256 then 31 else x.toNat / 8388608 % 256 - 112 := by
  unfold encExpOut
  rw [encClass_eq, encRebiased_eq]
  by_cases h1 : x.toNat / 8388608 % 256 ≤ 112
  · simp [h1]
  · by_cases h2 : 143 ≤ x.toNat / 8388608 % 256
    · simp [h1, h2]
    · simp only [h1, h2, if_false]
      omega

/-- The mantissa field of the ENCODE result by the operand's exponent field (R45). -/
theorem encMantOut_eq (x : Word32) :
    encMantOut x = if x.toNat / 8388608 % 256 ≤ 112 then 0
      else if 143 ≤ x.toNat / 8388608 % 256 then 0 else x.toNat / 8192 % 1024 := by
  unfold encMantOut
  rw [encClass_eq, encMantissa_eq]
  by_cases h1 : x.toNat / 8388608 % 256 ≤ 112
  · simp [h1]
  · by_cases h2 : 143 ≤ x.toNat / 8388608 % 256 <;> simp [h1, h2]

/-- Three numbers in disjoint bits: their OR is their sum (R86). -/
theorem or_eq_add {a b c i j : Nat} (hb : 2 ^ j * b + c < 2 ^ i) (hc : c < 2 ^ j) :
    (2 ^ i * a ||| 2 ^ j * b) ||| c = 2 ^ i * a + 2 ^ j * b + c := by
  rw [Nat.or_assoc, ← Nat.two_pow_add_eq_or_of_lt hc, ← Nat.two_pow_add_eq_or_of_lt hb, Nat.add_assoc]

/-- The ENCODE result as a number: sign, exponent and mantissa lie in disjoint bits (R57, R86). -/
theorem encodeHalf_toNat (x : Word32) :
    (encodeHalf x).toNat = x.toNat / 2147483648 * 32768 + encExpOut x * 1024 + encMantOut x := by
  have he : encExpOut x ≤ 31 := by rw [encExpOut_eq]; split <;> [skip; split] <;> omega
  have hm : encMantOut x < 1024 := by rw [encMantOut_eq]; split <;> [skip; split] <;> omega
  have hsum := or_eq_add (a := x.toNat / 2147483648) (i := 15) (j := 10) (b := encExpOut x)
    (c := encMantOut x) (by omega) hm
  have hexp : encExpOut x <<< 10 % 65536 = 2 ^ 10 * encExpOut x := by
    rw [Nat.shiftLeft_eq]; omega
  have hsign : x.toNat / 2147483648 * 32768 = 2 ^ 15 * (x.toNat / 2147483648) := by omega
  rw [encodeHalf, BitVec.toNat_or, BitVec.toNat_or, encSignTerm_toNat, BitVec.toNat_shiftLeft,
    BitVec.toNat_ofNat, BitVec.toNat_ofNat, Nat.mod_eq_of_lt (show encExpOut x < 2 ^ 16 by omega),
    Nat.mod_eq_of_lt (show encMantOut x < 2 ^ 16 by omega), show (2 : Nat) ^ 16 = 65536 from rfl, hexp,
    hsign, hsum]
  omega

/-- The exponent field of the DECODE result by the operand's (R45). -/
theorem decExpOut_eq (h : Word16) :
    decExpOut h = if h.toNat / 1024 % 32 = 0 then 0
      else if h.toNat / 1024 % 32 = 31 then 255 else h.toNat / 1024 % 32 + 112 := by
  unfold decExpOut decClass
  rw [fp16Exp_toNat, Config.emax16, Config.emax32, Config.rebias]
  by_cases h1 : h.toNat / 1024 % 32 = 0
  · simp [h1]
  · by_cases h2 : h.toNat / 1024 % 32 = 31 <;> simp [h1, h2]

theorem decSignTerm_toNat (h : Word16) : (decSignTerm h).toNat = 2 ^ 31 * (h.toNat / 32768) := by
  have hlt := h.isLt
  have hland : h.toNat &&& 32768 = h.toNat / 32768 % 2 * 32768 := land_two_pow _ 15
  simp only [decSignTerm, Config.sign16Mask, BitVec.toNat_shiftLeft, BitVec.toNat_setWidth, BitVec.toNat_and,
    Nat.shiftLeft_eq, BitVec.toNat_ofNat, Nat.reducePow, Nat.reduceMod, hland]
  omega

theorem decMantTerm_toNat (h : Word16) : (decMantTerm h).toNat = h.toNat % 1024 * 8192 := by
  have hland : h.toNat &&& 1023 = h.toNat % 1024 := Nat.and_two_pow_sub_one_eq_mod _ 10
  simp only [decMantTerm, Config.mant16Mask, Config.mshift, BitVec.toNat_shiftLeft, BitVec.toNat_setWidth,
    BitVec.toNat_and, Nat.shiftLeft_eq, BitVec.toNat_ofNat, Nat.reducePow, Nat.reduceMod, hland]
  omega

/-- The DECODE result as a number: sign, exponent and mantissa lie in disjoint bits (R67, R86). -/
theorem decodeHalf_toNat (h : Word16) :
    (decodeHalf h).toNat = h.toNat / 32768 * 2147483648 + decExpOut h * 8388608 + h.toNat % 1024 * 8192 := by
  have he : decExpOut h ≤ 255 := by rw [decExpOut_eq]; split <;> [skip; split] <;> omega
  have hsum := or_eq_add (a := h.toNat / 32768) (i := 31) (j := 23) (b := decExpOut h)
    (c := h.toNat % 1024 * 8192) (by omega) (by omega)
  have hexp : decExpOut h <<< 23 % 4294967296 = 2 ^ 23 * decExpOut h := by
    rw [Nat.shiftLeft_eq]; omega
  rw [decodeHalf, BitVec.toNat_or, BitVec.toNat_or, decSignTerm_toNat, decMantTerm_toNat,
    BitVec.toNat_shiftLeft, BitVec.toNat_ofNat, Nat.mod_eq_of_lt (show decExpOut h < 2 ^ 32 by omega),
    show (2 : Nat) ^ 32 = 4294967296 from rfl, hexp, hsum]
  omega

end Sys2Proof.Machine
end

