-- ==== Sys2Proof/Laws/Ports.lean ====
section
/-! SUPPORT. Signals: their length, their levels and the number they carry. -/

namespace Sys2Proof

@[simp] theorem length_levelsOf (n v : Nat) : (levelsOf n v).length = n := by
  induction n generalizing v with
  | zero => rfl
  | succ n ih => simp [levelsOf, ih]

theorem signalTwoValued_levelsOf (n v : Nat) : signalTwoValued (levelsOf n v) = true := by
  induction n generalizing v with
  | zero => rfl
  | succ n ih =>
    have ih' := ih (v / 2)
    simp only [signalTwoValued] at ih'
    simp only [signalTwoValued, levelsOf, List.all_cons, ih', Bool.and_true]
    split <;> rfl

/-- The wires carry the number they were given, cut to their width. -/
theorem signalValue_levelsOf (n v : Nat) : signalValue (levelsOf n v) = some (v % 2 ^ n) := by
  induction n generalizing v with
  | zero => simp [levelsOf, signalValue, Nat.mod_one]
  | succ n ih =>
    have hpow : v % 2 ^ (n + 1) = v % 2 + 2 * (v / 2 % 2 ^ n) := by
      rw [Nat.pow_succ, Nat.mul_comm, Nat.mod_mul]
    unfold levelsOf signalValue
    rw [ih]
    rcases Nat.mod_two_eq_zero_or_one v with h | h <;> simp [h, levelBit, hpow]

theorem signalValue_lt {sig : Signal} {v : Nat} (h : signalValue sig = some v) : v < 2 ^ sig.length := by
  induction sig generalizing v with
  | nil =>
    obtain rfl : 0 = v := by simpa [signalValue] using h
    exact Nat.one_pos
  | cons l ls ih =>
    unfold signalValue at h
    cases hl : levelBit l with
    | none => simp [hl] at h
    | some b =>
      cases hs : signalValue ls with
      | none => simp [hl, hs] at h
      | some u =>
        have hu := ih hs
        have hb : b < 2 := by
          cases l <;> simp_all [levelBit]
          omega
        simp [hl, hs] at h
        rw [List.length_cons, Nat.pow_succ]
        omega

/-- A signal that carries a number is the levels of that number. -/
theorem levelsOf_signalValue {sig : Signal} {v : Nat} (h : signalValue sig = some v) :
    levelsOf sig.length v = sig := by
  induction sig generalizing v with
  | nil => rfl
  | cons l ls ih =>
    unfold signalValue at h
    cases hl : levelBit l with
    | none => simp [hl] at h
    | some b =>
      cases hs : signalValue ls with
      | none => simp [hl, hs] at h
      | some u =>
        simp [hl, hs] at h
        have hb : b = 0 ∨ b = 1 := by cases l <;> simp_all [levelBit]
        have hdiv : v / 2 = u := by omega
        simp only [List.length_cons, levelsOf, hdiv, ih hs]
        cases l <;> simp_all [levelBit] <;> omega

/-- A signal carries a number exactly when every wire is two-valued. -/
theorem signalValue_isSome (sig : Signal) : (signalValue sig).isSome = signalTwoValued sig := by
  induction sig with
  | nil => rfl
  | cons l ls ih =>
    simp only [signalTwoValued, List.all_cons] at ih ⊢
    unfold signalValue
    rw [← ih]
    cases l <;> cases signalValue ls <;> simp [levelBit, Level.twoValued]

/-- Everything a decoded port says. -/
theorem decodePort_ok {b : Block} {sig : Signal} {i : Instr} (h : decodePort b sig = .ok i) :
    sig.length = b.operandWidth ∧ ∃ v, signalValue sig = some v ∧ i = blockInstr b v := by
  unfold decodePort at h
  split at h
  · next hlen =>
    split at h
    · next v hv =>
      simp only [Except.ok.injEq] at h
      exact ⟨hlen, v, hv, h.symm⟩
    · cases h
  · cases h

end Sys2Proof
end

