-- ==== Sys2Proof/Laws/PerInstr.lean ====
section
/-! SUPPORT. What holds of every instruction as syntax, one lemma per constructor. -/

/-- Every instruction's word is a two-valued signal as wide as the input port of the block that performs it
(R32, R35). -/
def Sys2Proof.Laws.PortForm.Statement (i : Sys2Proof.Instr) : Prop :=
  (Sys2Proof.encodeInstr i).1 = i.block ∧
    Sys2Proof.signalWellFormed i.block (Sys2Proof.encodeInstr i).2 = true

theorem Sys2Proof.Laws.PortForm.encode (x : Sys2Proof.Word32) :
    Sys2Proof.Laws.PortForm.Statement (.encode x) :=
  ⟨rfl, by
    simp [Sys2Proof.encodeInstr, Sys2Proof.signalWellFormed, Sys2Proof.signalFits, Sys2Proof.Instr.block,
      Sys2Proof.Block.operandWidth, Sys2Proof.signalTwoValued_levelsOf]⟩

theorem Sys2Proof.Laws.PortForm.decode (h : Sys2Proof.Word16) :
    Sys2Proof.Laws.PortForm.Statement (.decode h) :=
  ⟨rfl, by
    simp [Sys2Proof.encodeInstr, Sys2Proof.signalWellFormed, Sys2Proof.signalFits, Sys2Proof.Instr.block,
      Sys2Proof.Block.operandWidth, Sys2Proof.signalTwoValued_levelsOf]⟩
end

