-- ==== Sys2Proof/Laws/State.lean ====
section
/-! SUPPORT. What each update of the state does to each field. -/

namespace Sys2Proof.Machine

@[simp] theorem presentF32_encoderIn (s : State) (x : Word32) :
    (s.presentF32 x).encoderIn = tablePut s.wired x s.encoderIn := rfl
@[simp] theorem presentF32_decoderIn (s : State) (x : Word32) :
    (s.presentF32 x).decoderIn = s.decoderIn := rfl
@[simp] theorem presentF32_wired (s : State) (x : Word32) : (s.presentF32 x).wired = s.wired := rfl
@[simp] theorem presentF32_nets (s : State) (x : Word32) : (s.presentF32 x).nets = s.nets := rfl
@[simp] theorem presentF32_program (s : State) (x : Word32) : (s.presentF32 x).program = s.program := rfl
@[simp] theorem presentF32_schedule (s : State) (x : Word32) : (s.presentF32 x).schedule = s.schedule := rfl

@[simp] theorem presentF16_encoderIn (s : State) (h : Word16) :
    (s.presentF16 h).encoderIn = s.encoderIn := rfl
@[simp] theorem presentF16_decoderIn (s : State) (h : Word16) :
    (s.presentF16 h).decoderIn = tablePut s.wired h s.decoderIn := rfl
@[simp] theorem presentF16_wired (s : State) (h : Word16) : (s.presentF16 h).wired = s.wired := rfl
@[simp] theorem presentF16_nets (s : State) (h : Word16) : (s.presentF16 h).nets = s.nets := rfl
@[simp] theorem presentF16_program (s : State) (h : Word16) : (s.presentF16 h).program = s.program := rfl
@[simp] theorem presentF16_schedule (s : State) (h : Word16) : (s.presentF16 h).schedule = s.schedule := rfl

@[simp] theorem assignNet_encoderIn (s : State) (n : Nat) (sig : Signal) :
    (s.assignNet n sig).encoderIn = s.encoderIn := rfl
@[simp] theorem assignNet_decoderIn (s : State) (n : Nat) (sig : Signal) :
    (s.assignNet n sig).decoderIn = s.decoderIn := rfl
@[simp] theorem assignNet_wired (s : State) (n : Nat) (sig : Signal) : (s.assignNet n sig).wired = s.wired := rfl
@[simp] theorem assignNet_nets (s : State) (n : Nat) (sig : Signal) :
    (s.assignNet n sig).nets = tablePut n sig s.nets := rfl
@[simp] theorem assignNet_program (s : State) (n : Nat) (sig : Signal) :
    (s.assignNet n sig).program = s.program := rfl
@[simp] theorem assignNet_schedule (s : State) (n : Nat) (sig : Signal) :
    (s.assignNet n sig).schedule = s.schedule := rfl

@[simp] theorem launch_encoderIn (s : State) (l : Line) (ls : List Line) :
    (s.launch l ls).encoderIn = s.encoderIn := rfl
@[simp] theorem launch_decoderIn (s : State) (l : Line) (ls : List Line) :
    (s.launch l ls).decoderIn = s.decoderIn := rfl
@[simp] theorem launch_wired (s : State) (l : Line) (ls : List Line) : (s.launch l ls).wired = l.unit := rfl
@[simp] theorem launch_nets (s : State) (l : Line) (ls : List Line) : (s.launch l ls).nets = s.nets := rfl
@[simp] theorem launch_program (s : State) (l : Line) (ls : List Line) : (s.launch l ls).program = ls := rfl
@[simp] theorem launch_schedule (s : State) (l : Line) (ls : List Line) :
    (s.launch l ls).schedule = s.schedule.tail := rfl

@[simp] theorem presentNext_encoderIn (s : State) (n w : Nat) :
    (s.presentNext n w).encoderIn = s.encoderIn := rfl
@[simp] theorem presentNext_decoderIn (s : State) (n w : Nat) :
    (s.presentNext n w).decoderIn = s.decoderIn := rfl
@[simp] theorem presentNext_wired (s : State) (n w : Nat) : (s.presentNext n w).wired = s.wired := rfl
@[simp] theorem presentNext_nets (s : State) (n w : Nat) : (s.presentNext n w).nets = s.nets := rfl

end Sys2Proof.Machine
end

