-- ==== Sys2Proof/Laws/Tables.lean ====
section
/-! SUPPORT. Tables: what a lookup gives after an update, and that every update keeps the canonical form. -/

namespace Sys2Proof.Machine

variable {α : Type}

theorem tableFind_tablePut_same (k : Nat) (v : α) (t : Table α) : tableFind k (tablePut k v t) = some v := by
  induction t with
  | nil => simp [tablePut, tableFind]
  | cons e t ih =>
    obtain ⟨j, u⟩ := e
    unfold tablePut
    split
    · simp [tableFind]
    · split
      · simp [tableFind]
      · rename_i hne
        simp [tableFind, hne, ih]

theorem tableFind_tablePut_other {k m : Nat} (v : α) (t : Table α) (h : m ≠ k) :
    tableFind m (tablePut k v t) = tableFind m t := by
  induction t with
  | nil => simp [tablePut, tableFind, h]
  | cons e t ih =>
    obtain ⟨j, u⟩ := e
    unfold tablePut
    split
    · simp [tableFind, h]
    · split
      · rename_i hkj
        subst hkj
        simp [tableFind, h]
      · simp [tableFind, ih]

/-- What a lookup gives after an update. -/
theorem tableFind_tablePut (m k : Nat) (v : α) (t : Table α) :
    tableFind m (tablePut k v t) = if m = k then some v else tableFind m t := by
  split
  · next h => subst h; exact tableFind_tablePut_same _ _ _
  · next h => exact tableFind_tablePut_other _ _ h

theorem mem_tablePut {k : Nat} {v : α} {t : Table α} {e : Nat × α} (h : e ∈ tablePut k v t) :
    e = (k, v) ∨ e ∈ t := by
  induction t with
  | nil => simpa [tablePut] using h
  | cons d t ih =>
    obtain ⟨j, u⟩ := d
    unfold tablePut at h
    split at h
    · simpa using h
    · split at h
      · rcases List.mem_cons.mp h with h | h
        · exact .inl h
        · exact .inr (List.mem_cons_of_mem _ h)
      · rcases List.mem_cons.mp h with h | h
        · exact .inr (h ▸ List.mem_cons_self)
        · exact (ih h).imp_right (List.mem_cons_of_mem _)

theorem tablePut_keeps_sorted (k : Nat) (v : α) (t : Table α) (h : tableSorted t) :
    tableSorted (tablePut k v t) := by
  induction t with
  | nil => simp [tablePut]
  | cons e t ih =>
    obtain ⟨j, u⟩ := e
    obtain ⟨hj, ht⟩ := List.pairwise_cons.mp h
    unfold tablePut
    split
    · next hkj =>
      refine List.pairwise_cons.mpr ⟨fun b hb => ?_, h⟩
      rcases List.mem_cons.mp hb with rfl | hb
      · exact hkj
      · exact Nat.lt_trans hkj (hj b hb)
    · split
      · next hkj => exact List.pairwise_cons.mpr ⟨fun b hb => hkj ▸ hj b hb, ht⟩
      · refine List.pairwise_cons.mpr ⟨fun b hb => ?_, ih ht⟩
        rcases mem_tablePut hb with rfl | hb
        · show j < k
          omega
        · exact hj b hb

theorem tableFind_none_of_lt {t : Table α} {k : Nat} (h : ∀ e ∈ t, k < e.1) : tableFind k t = none := by
  induction t with
  | nil => rfl
  | cons e t ih =>
    obtain ⟨j, u⟩ := e
    have hj : k < j := h (j, u) List.mem_cons_self
    simp [tableFind, Nat.ne_of_lt hj, ih fun e he => h e (List.mem_cons_of_mem _ he)]

/-- Tables in canonical form with the same entries are the same data. -/
theorem table_ext {t u : Table α} (ht : tableSorted t) (hu : tableSorted u)
    (h : ∀ k, tableFind k t = tableFind k u) : t = u := by
  induction t generalizing u with
  | nil =>
    cases u with
    | nil => rfl
    | cons e u => simpa [tableFind] using h e.1
  | cons d t ih =>
    obtain ⟨j, v⟩ := d
    obtain ⟨hj, ht'⟩ := List.pairwise_cons.mp ht
    cases u with
    | nil => simpa [tableFind] using h j
    | cons e u =>
      obtain ⟨i, w⟩ := e
      obtain ⟨hi, hu'⟩ := List.pairwise_cons.mp hu
      have hji : j = i := by
        rcases Nat.lt_trichotomy j i with hlt | heq | hgt
        · have hn : tableFind j u = none :=
            tableFind_none_of_lt fun e he => Nat.lt_trans hlt (hi e he)
          simpa [tableFind, Nat.ne_of_lt hlt, hn] using h j
        · exact heq
        · have hn : tableFind i t = none :=
            tableFind_none_of_lt fun e he => Nat.lt_trans hgt (hj e he)
          simpa [tableFind, Nat.ne_of_lt hgt, hn] using h i
      subst hji
      have hvw : v = w := by simpa [tableFind] using h j
      subst hvw
      refine congrArg _ (ih ht' hu' fun k => ?_)
      by_cases hk : k = j
      · subst hk
        rw [tableFind_none_of_lt hj, tableFind_none_of_lt hi]
      · simpa [tableFind, hk] using h k

theorem presentF32_keeps_wf (s : State) (x : Word32) (h : s.wf) : (s.presentF32 x).wf :=
  ⟨tablePut_keeps_sorted _ _ _ h.1, h.2.1, h.2.2⟩

theorem presentF16_keeps_wf (s : State) (x : Word16) (h : s.wf) : (s.presentF16 x).wf :=
  ⟨h.1, tablePut_keeps_sorted _ _ _ h.2.1, h.2.2⟩

theorem assignNet_keeps_wf (s : State) (n : Nat) (sig : Signal) (h : s.wf) : (s.assignNet n sig).wf :=
  ⟨h.1, h.2.1, tablePut_keeps_sorted _ _ _ h.2.2⟩

/-- The word on every encoder's input port after a word is presented. -/
theorem f32I_presentF32 (s : State) (x : Word32) (k : Nat) :
    (s.presentF32 x).f32I k = if k = s.wired then x else s.f32I k := by
  simp only [State.f32I, presentF32_encoderIn, tableFind_tablePut]
  split <;> rfl

/-- The word on every decoder's input port after a word is presented. -/
theorem f16I_presentF16 (s : State) (h : Word16) (k : Nat) :
    (s.presentF16 h).f16I k = if k = s.wired then h else s.f16I k := by
  simp only [State.f16I, presentF16_decoderIn, tableFind_tablePut]
  split <;> rfl

end Sys2Proof.Machine
end

