-- ==== Sys2Proof/Laws/Step.lean ====
section
/-! SUPPORT. What a step can do, said once, and what the picking of a line can answer. -/

namespace Sys2Proof.Machine

/-- Everything a literal can stand for. -/
theorem sourceSignal_literal_some {nets : Table Signal} {w v : Nat} {sig : Signal}
    (h : sourceSignal nets (.literal w v) = some sig) : v < 2 ^ w ∧ sig = levelsOf w v := by
  simp only [sourceSignal, literalFits, decide_eq_true_eq] at h
  split at h
  · next hfit => exact ⟨hfit, (Option.some.inj h).symm⟩
  · cases h

/-- A literal that fits its width stands for the levels of its number. -/
theorem sourceSignal_literal {nets : Table Signal} {w v : Nat} (h : v < 2 ^ w) :
    sourceSignal nets (.literal w v) = some (levelsOf w v) := by
  simp [sourceSignal, literalFits, h]

/-- Everything the picking of a line can answer: a ready line of the program, and the rest in order. -/
theorem pickReady_some {nets : Table Signal} {k : Nat} {ls : List Line} {l : Line} {rest : List Line}
    (h : pickReady nets k ls = some (l, rest)) :
    ∃ before after, ls = before ++ l :: after ∧ rest = before ++ after ∧ lineReady nets l = true := by
  induction ls generalizing k rest with
  | nil => simp [pickReady] at h
  | cons m ls ih =>
    unfold pickReady at h
    split at h
    · next hm =>
      split at h
      · obtain ⟨rfl, rfl⟩ := Prod.mk.inj (Option.some.inj h)
        exact ⟨[], ls, rfl, rfl, hm⟩
      · obtain ⟨p, hp, hpe⟩ := Option.map_eq_some_iff.mp h
        obtain ⟨rfl, rfl⟩ := Prod.mk.inj hpe
        obtain ⟨before, after, rfl, hrest, hl⟩ := ih hp
        exact ⟨m :: before, after, rfl, by rw [hrest]; rfl, hl⟩
    · obtain ⟨p, hp, hpe⟩ := Option.map_eq_some_iff.mp h
      obtain ⟨rfl, rfl⟩ := Prod.mk.inj hpe
      obtain ⟨before, after, rfl, hrest, hl⟩ := ih hp
      exact ⟨m :: before, after, rfl, by rw [hrest]; rfl, hl⟩

/-- A line is picked whenever the number is below the count of ready lines. -/
theorem pickReady_isSome {nets : Table Signal} {k : Nat} {ls : List Line}
    (h : k < ls.countP (lineReady nets)) : ∃ p, pickReady nets k ls = some p := by
  induction ls generalizing k with
  | nil => simp at h
  | cons l ls ih =>
    unfold pickReady
    by_cases hl : lineReady nets l = true
    · rw [if_pos hl]
      cases k with
      | zero => exact ⟨_, rfl⟩
      | succ k =>
        rw [List.countP_cons_of_pos hl] at h
        obtain ⟨p, hp⟩ := ih (k := k) (by omega)
        exact ⟨(p.1, l :: p.2), by simp [hp]⟩
    · rw [if_neg hl]
      rw [List.countP_cons_of_neg hl] at h
      obtain ⟨p, hp⟩ := ih h
      exact ⟨(p.1, l :: p.2), by simp [hp]⟩

/-- While some line is ready, one is taken. -/
theorem nextLine_isSome {s : State} {l : Line} (hl : l ∈ s.program) (hr : lineReady s.nets l = true) :
    ∃ p, nextLine s = some p := by
  have hpos : 0 < s.program.countP (lineReady s.nets) := List.countP_pos_iff.mpr ⟨l, hl, hr⟩
  exact pickReady_isSome (Nat.mod_lt _ hpos)

/-- Everything the fetching of a line says. -/
theorem fetch_some {s s' : State} {l : Line} {i : Instr} (h : fetch s = .ok (some (l, i, s'))) :
    ∃ rest sig, nextLine s = some (l, rest) ∧ tableFind l.dst s.nets = none ∧
      sourceSignal s.nets l.src = some sig ∧ decodePort l.block sig = .ok i ∧ s' = s.launch l rest := by
  unfold fetch at h
  split at h
  · split at h <;> simp at h
  · next l0 rest hn =>
    split at h
    · cases h
    · next hd =>
      split at h
      · cases h
      · next sig hsig =>
        split at h
        · cases h
        · next j hj =>
          obtain ⟨rfl, rfl, rfl⟩ : l0 = l ∧ j = i ∧ s.launch l0 rest = s' := by simpa using h
          exact ⟨rest, sig, hn, by simpa using hd, hsig, hj, rfl⟩

/-- The converse: when the next line can be evaluated, that is what is fetched. -/
theorem fetch_eq_some {s : State} {l : Line} {rest : List Line} {sig : Signal} {i : Instr}
    (hn : nextLine s = some (l, rest)) (hd : tableFind l.dst s.nets = none)
    (hs : sourceSignal s.nets l.src = some sig) (hi : decodePort l.block sig = .ok i) :
    fetch s = .ok (some (l, i, s.launch l rest)) := by
  simp [fetch, hn, hd, hs, hi]

theorem fetch_none {s : State} (h : fetch s = .ok none) : s.program = [] := by
  unfold fetch at h
  split at h
  · split at h
    · next he => simpa using he
    · cases h
  · split at h
    · cases h
    · split at h
      · cases h
      · split at h <;> cases h

/-- The state after presenting an operation's word. -/
def afterExec (i : Instr) (s : State) : State :=
  match i with
  | .encode x => s.presentF32 x
  | .decode h => s.presentF16 h

theorem exec_eq (i : Instr) (s : State) : exec i s = .next (afterExec i s) := by
  cases i <;> rfl

/-- The word an operation presents, on every input port. -/
theorem ports_afterExec (i : Instr) (s : State) (k : Nat) :
    (afterExec i s).f32I k = (match i with
      | .encode x => if k = s.wired then x else s.f32I k
      | .decode _ => s.f32I k) ∧
    (afterExec i s).f16I k = (match i with
      | .encode _ => s.f16I k
      | .decode h => if k = s.wired then h else s.f16I k) := by
  cases i with
  | encode x => exact ⟨f32I_presentF32 s x k, rfl⟩
  | decode h => exact ⟨rfl, f16I_presentF16 s h k⟩

@[simp] theorem afterExec_nets (i : Instr) (s : State) : (afterExec i s).nets = s.nets := by cases i <;> rfl
@[simp] theorem afterExec_program (i : Instr) (s : State) : (afterExec i s).program = s.program := by
  cases i <;> rfl
@[simp] theorem afterExec_schedule (i : Instr) (s : State) : (afterExec i s).schedule = s.schedule := by
  cases i <;> rfl
@[simp] theorem afterExec_wired (i : Instr) (s : State) : (afterExec i s).wired = s.wired := by
  cases i <;> rfl

theorem afterExec_keeps_wf (i : Instr) (s : State) (h : s.wf) : (afterExec i s).wf := by
  cases i with
  | encode x => exact presentF32_keeps_wf s x h
  | decode x => exact presentF16_keeps_wf s x h

@[simp] theorem deliver_encoderIn (l : Line) (s : State) : (deliver l s).encoderIn = s.encoderIn := rfl
@[simp] theorem deliver_decoderIn (l : Line) (s : State) : (deliver l s).decoderIn = s.decoderIn := rfl
@[simp] theorem deliver_wired (l : Line) (s : State) : (deliver l s).wired = s.wired := rfl
@[simp] theorem deliver_program (l : Line) (s : State) : (deliver l s).program = s.program := rfl
@[simp] theorem deliver_schedule (l : Line) (s : State) : (deliver l s).schedule = s.schedule := rfl
@[simp] theorem deliver_nets (l : Line) (s : State) :
    (deliver l s).nets = tablePut l.dst (outputSignal l.block l.unit s) s.nets := rfl

/-- The word on the output port of the instance that has evaluated an operation is the operation's result. -/
theorem outputSignal_afterExec {i : Instr} {b : Block} {v : Nat} (h : i = blockInstr b v) (s : State) :
    outputSignal b s.wired (afterExec i s) = resultSignal i := by
  cases b <;> subst h <;>
    simp [blockInstr, afterExec, outputSignal, resultSignal, State.f16O, State.f32O, f32I_presentF32,
      f16I_presentF16]

/-- Everything a step that answers a next state can have done: nothing, where every line has its result; or
one evaluation, its line taken from the program and its result put in the line's net. -/
theorem step_cases {s t : State} (h : step s = .next t) :
    (s.program = [] ∧ t = s) ∨
    (∃ l rest sig i, nextLine s = some (l, rest) ∧ tableFind l.dst s.nets = none ∧
      sourceSignal s.nets l.src = some sig ∧ decodePort l.block sig = .ok i ∧
      t = deliver l (afterExec i (s.launch l rest))) := by
  unfold step at h
  split at h
  · cases h
  · next hf =>
    cases h
    exact .inl ⟨fetch_none hf, rfl⟩
  · next l i s' hf =>
    obtain ⟨rest, sig, hn, hd, hs, hi, rfl⟩ := fetch_some hf
    rw [exec_eq] at h
    cases h
    exact .inr ⟨l, rest, sig, i, hn, hd, hs, hi, rfl⟩

/-- A step whose line can be evaluated. -/
theorem step_eq_next {s : State} {l : Line} {rest : List Line} {sig : Signal} {i : Instr}
    (hn : nextLine s = some (l, rest)) (hd : tableFind l.dst s.nets = none)
    (hs : sourceSignal s.nets l.src = some sig) (hi : decodePort l.block sig = .ok i) :
    step s = .next (deliver l (afterExec i (s.launch l rest))) := by
  simp [step, fetch_eq_some hn hd hs hi, exec_eq]

/-- The nets after such a step. -/
theorem nets_after_line {l : Line} {sig : Signal} {i : Instr} (hi : decodePort l.block sig = .ok i) (s : State)
    (rest : List Line) :
    (deliver l (afterExec i (s.launch l rest))).nets = tablePut l.dst (resultSignal i) s.nets := by
  obtain ⟨_, v, _, hv⟩ := decodePort_ok hi
  have h := outputSignal_afterExec hv (s.launch l rest)
  rw [launch_wired] at h
  rw [deliver_nets, h, afterExec_nets, launch_nets]

theorem lt_foldr_fresh {ns : List Nat} {n : Nat} (h : n ∈ ns) :
    n < ns.foldr (fun n m => max (n + 1) m) 0 := by
  induction ns with
  | nil => cases h
  | cons a as ih =>
    rw [List.foldr_cons]
    rcases List.mem_cons.mp h with rfl | h
    · omega
    · have := ih h
      omega

theorem mem_of_tableFind {α : Type} {t : Table α} {k : Nat} {v : α} (h : tableFind k t = some v) :
    (k, v) ∈ t := by
  induction t with
  | nil => cases h
  | cons e t ih =>
    obtain ⟨j, u⟩ := e
    unfold tableFind at h
    split at h
    · next hk =>
      obtain rfl := Option.some.inj h
      exact hk ▸ List.mem_cons_self
    · exact List.mem_cons_of_mem _ (ih h)

/-- No value has the name that a loaded line's result goes to. -/
theorem tableFind_freshName (s : State) : tableFind (freshName s) s.nets = none := by
  cases h : tableFind (freshName s) s.nets with
  | none => rfl
  | some v =>
    have hm : freshName s ∈ s.nets.map Prod.fst ++ s.program.flatMap lineNames :=
      List.mem_append_left _ (List.mem_map.mpr ⟨_, mem_of_tableFind h, rfl⟩)
    exact absurd (lt_foldr_fresh hm) (Nat.lt_irrefl _)

end Sys2Proof.Machine
end

