-- ==== Sys2Proof/Tests/Slice0.lean ====
section
/-! SUPPORT. Small tests. Every expected word is from spec/95_test_vectors.md (its row is named) or written out by
hand from the encodings of spec/30_encoding.md. -/

namespace Sys2Proof.Tests

open Sys2Proof Sys2Proof.Machine

/-! ### WellFormed: for each check an ill-formed term it refuses -/

theorem test_signalFits_refuses_short : signalFits .encoder [.one, .zero] = false := by decide
theorem test_signalTwoValued_refuses_x : signalTwoValued [.one, .x] = false := by decide
theorem test_signalTwoValued_refuses_z : signalTwoValued [.z, .one] = false := by decide
theorem test_signalWellFormed_refuses_wide : signalWellFormed .decoder (levelsOf 32 0) = false := by decide
theorem test_signalWellFormed_refuses_undriven_bit :
    signalWellFormed .decoder (.z :: levelsOf 15 0) = false := by decide
theorem test_sourceFits_refuses_unknown_net :
    Line.sourceFits [] { block := .encoder, dst := 1, src := .net 0, unit := 0 } = false := by decide
theorem test_sourceFits_refuses_narrow_net :
    Line.sourceFits [(0, some 16)] { block := .encoder, dst := 1, src := .net 0, unit := 0 } = false := by decide
theorem test_sourceFits_refuses_unknown_bits :
    Line.sourceFits [(0, none)] { block := .encoder, dst := 1, src := .net 0, unit := 0 } = false := by decide
theorem test_sourceFits_refuses_wide_literal :
    Line.sourceFits [] { block := .decoder, dst := 1, src := .literal 32 0, unit := 0 } = false := by decide
theorem test_sourceFits_refuses_literal_beyond_its_width :
    Line.sourceFits [] { block := .decoder, dst := 1, src := .literal 16 0x10000, unit := 0 } = false := by decide
theorem test_literalFits_refuses_one_too_many : literalFits 16 0x10000 = false ∧ literalFits 16 0xFFFF = true := by
  decide
theorem test_targetFresh_refuses_known_net :
    Line.targetFresh [(1, some 16)] { block := .encoder, dst := 1, src := .literal 32 0, unit := 0 } = false := by
  decide
theorem test_programWellFormed_refuses_second_assignment :
    programWellFormed []
      [{ block := .encoder, dst := 1, src := .literal 32 0, unit := 0 },
       { block := .encoder, dst := 1, src := .literal 32 1, unit := 0 }] = false := by decide
theorem test_programWellFormed_refuses_cycle :
    programWellFormed []
      [{ block := .encoder, dst := 1, src := .net 2, unit := 0 },
       { block := .decoder, dst := 2, src := .net 1, unit := 0 }] = false := by decide

/-! ### Decoding: words written out bit by bit from R33 and R34 -/

/-- 1.0 in FP32: `s` 0, `e8` 01111111, `m` 0000000000, `d` 0000000000000 (R33), wire 0 first. -/
theorem test_decode_encoder_word :
    decodePort .encoder
      ([.zero, .zero, .zero, .zero, .zero, .zero, .zero, .zero, .zero, .zero, .zero, .zero, .zero] ++
       [.zero, .zero, .zero, .zero, .zero, .zero, .zero, .zero, .zero, .zero] ++
       [.one, .one, .one, .one, .one, .one, .one, .zero] ++ [.zero])
      = .ok (.encode 0x3F800000#32) := by decide

/-- -2.5 in FP16: `s` 1, `e5` 10000, `m10` 0100000000 (R34), wire 0 first. -/
theorem test_decode_decoder_word :
    decodePort .decoder
      ([.zero, .zero, .zero, .zero, .zero, .zero, .zero, .zero, .one, .zero] ++
       [.zero, .zero, .zero, .zero, .one] ++ [.one])
      = .ok (.decode 0xC100#16) := by decide

theorem test_decode_rejects_width : decodePort .encoder (levelsOf 16 0) = .error (.wrongWidth 16 32) := by decide
theorem test_decode_rejects_x :
    decodePort .decoder (.x :: levelsOf 15 0) = .error .notTwoValued := by decide
theorem test_table_word_encode : decodeTableWord 32 0xC0200000 = some (.encode 0xC0200000#32) := by decide
theorem test_table_word_decode : decodeTableWord 16 0x83FF = some (.decode 0x83FF#16) := by decide

/-! ### ENCODE, one step from reset: vectors at every class boundary -/

/-- The result of presenting a word of `n` bits to instance 0 as the first evaluation after reset. -/
def firstResult (n w : Nat) : Option Signal :=
  match step (State.reset.withFetchWord n w) with
  | .next t => tableFind 0 t.nets
  | .fault _ => none
  | .refused _ => none

theorem test_encode_vectors_underflow :
    encodeHalf 0x80000000#32 = 0x8000#16 ∧ encodeHalf 0x007FFFFF#32 = 0x0000#16 ∧
    encodeHalf 0x387FFFFF#32 = 0x0000#16 ∧ encodeHalf 0xB87FFFFF#32 = 0x8000#16 := by
  decide  -- E2, E18, E22, E23

theorem test_encode_vectors_normal :
    encodeHalf 0x38800000#32 = 0x0400#16 ∧ encodeHalf 0xB8D1B717#32 = 0x868D#16 ∧
    encodeHalf 0x3F803FFF#32 = 0x3C01#16 ∧ encodeHalf 0x477FFFFF#32 = 0x7BFF#16 ∧
    encodeHalf 0x447A2000#32 = 0x63D1#16 := by
  decide  -- E24, E27, E15, E32, E12

theorem test_encode_vectors_overflow :
    encodeHalf 0x47800000#32 = 0x7C00#16 ∧ encodeHalf 0xFF800000#32 = 0xFC00#16 ∧
    encodeHalf 0x7F800001#32 = 0x7C00#16 ∧ encodeHalf 0xFFFFFFFF#32 = 0xFC00#16 := by
  decide  -- E33, E39, E42, E44

theorem test_encode_first_step : firstResult 32 0x40490FDB = some (levelsOf 16 0x4248) := by decide  -- E10

/-! ### DECODE, one step from reset: vectors at every class boundary -/

theorem test_decode_vectors_zero_exponent :
    decodeHalf 0x8000#16 = 0x80000000#32 ∧ decodeHalf 0x0001#16 = 0x00002000#32 ∧
    decodeHalf 0x83FF#16 = 0x807FE000#32 := by decide  -- D2, D30, D34

theorem test_decode_vectors_normal :
    decodeHalf 0x8400#16 = 0xB8800000#32 ∧ decodeHalf 0x07FF#16 = 0x38FFE000#32 ∧
    decodeHalf 0xFBFF#16 = 0xC77FE000#32 ∧ decodeHalf 0x63D0#16 = 0x447A0000#32 := by
  decide  -- D16, D18, D22, D13

theorem test_decode_vectors_all_ones :
    decodeHalf 0xFC00#16 = 0xFF800000#32 ∧ decodeHalf 0x7C01#16 = 0x7F802000#32 ∧
    decodeHalf 0xFE00#16 = 0xFFC00000#32 ∧ decodeHalf 0x7FFF#16 = 0x7FFFE000#32 := by
  decide  -- D24, D27, D26, D28

theorem test_decode_first_step : firstResult 16 0x4248 = some (levelsOf 32 0x40490000) := by decide  -- D11

/-! ### The other formulations and the values, at hand-calculated points -/

theorem test_encode_unsigned_form :
    encodeHalfUnsigned 0xC0200000#32 = 0xC100#16 ∧ encodeHalfUnsigned 0x38000000#32 = 0x0000#16 ∧
    encodeHalfUnsigned 0xC7800000#32 = 0xFC00#16 := by decide  -- E8, E21, E34

theorem test_decode_concat_form :
    decodeHalfConcat 0x3555#16 = 0x3EAAA000#32 ∧ decodeHalfConcat 0x0200#16 = 0x00400000#32 ∧
    decodeHalfConcat 0xFFFF#16 = 0xFFFFE000#32 := by decide  -- D10, D31, D29

/-- 0xC0200000 is -2.5 (E8). -/
theorem test_fp32Value_normal : fp32Value 0xC0200000#32 = some (-5 / 2) := by
  have hc : fp32Class 0xC0200000#32 = .normal := by decide
  have hs : (fp32Sign 0xC0200000#32).toNat = 1 := by decide
  have he : (fp32Exp 0xC0200000#32).toNat = 128 := by decide
  have hm : (fp32Mant 0xC0200000#32).toNat = 0x200000 := by decide
  rw [fp32Value, hc, hs, he, hm]
  norm_num [patternValue]

/-- 0x0001 is 2^-24, the smallest FP16 subnormal (D30). -/
theorem test_fp16Value_subnormal : fp16Value 0x0001#16 = some (1 / 2 ^ 24) := by
  have hc : fp16Class 0x0001#16 = .subnormal := by decide
  have hs : (fp16Sign 0x0001#16).toNat = 0 := by decide
  have he : (fp16Exp 0x0001#16).toNat = 0 := by decide
  have hm : (fp16Mant 0x0001#16).toNat = 1 := by decide
  rw [fp16Value, hc, hs, he, hm]
  norm_num [patternValue, zpow_neg]

/-- 0x7BFF is 65504, the largest finite FP16 (R44). -/
theorem test_fp16Value_largest : fp16Value 0x7BFF#16 = some 65504 := by
  have hc : fp16Class 0x7BFF#16 = .normal := by decide
  have hs : (fp16Sign 0x7BFF#16).toNat = 0 := by decide
  have he : (fp16Exp 0x7BFF#16).toNat = 30 := by decide
  have hm : (fp16Mant 0x7BFF#16).toNat = 0x3FF := by decide
  rw [fp16Value, hc, hs, he, hm]
  norm_num [patternValue]

theorem test_pattern_classes :
    fp32Class 0x00000001#32 = .subnormal ∧ fp32Class 0x7F7FFFFF#32 = .normal ∧
    fp32Class 0xFF800000#32 = .infinity ∧ fp32Class 0x7F800001#32 = .nan ∧
    fp32Quiet 0x7FC00000#32 = true ∧ fp32Quiet 0x7F800001#32 = false ∧ fp16Class 0x8000#16 = .zero := by
  decide

/-! ### The machine -/

/-- A state with one program loaded. -/
def loaded (nets : Table Signal) (program : List Line) (schedule : List Nat) : State :=
  { State.reset with nets := nets, program := program, schedule := schedule }

/-- The reason a step is refused. -/
def refusalOf (s : State) : Option Refusal :=
  match step s with
  | .next _ => none
  | .fault _ => none
  | .refused r => some r

/-- What holds of the state after one step. -/
def afterStep (s : State) (p : State → Bool) : Bool :=
  match step s with
  | .next t => p t
  | .fault _ => false
  | .refused _ => false

/-- The first two lines of P4, on instances of their own. -/
def lineP : Line := { block := .encoder, dst := 1, src := .net 0, unit := 7 }
def lineQ : Line := { block := .decoder, dst := 2, src := .net 1, unit := 3 }
def lineT : Line := { block := .encoder, dst := 4, src := .net 0, unit := 8 }

/-- Dataflow order: `q` is written first but waits for `p` (R40); the schedule's 1 takes the second ready line. -/
theorem test_schedule_picks_ready_line :
    nextLine (loaded [(0, levelsOf 32 0x3F803FFF)] [lineQ, lineP, lineT] [1]) = some (lineT, [lineQ, lineP]) := by
  decide

/-- P4: `p = 0x3C01` appears on the net and on `f16_o` of instance 7. -/
theorem test_step_of_program_P4 :
    afterStep (loaded [(0, levelsOf 32 0x3F803FFF)] [lineQ, lineP] [])
      (fun t => tableFind 1 t.nets == some (levelsOf 16 0x3C01) && t.f16O 7 == 0x3C01#16 && t.program == [lineQ])
      = true := by decide

theorem test_refuses_x : refusalOf (loaded [(0, .x :: levelsOf 31 0)] [lineP] []) = some .operandNotTwoValued := by
  decide
theorem test_refuses_width : refusalOf (loaded [(0, levelsOf 16 0)] [lineP] []) = some (.operandWidth 16 32) := by
  decide
theorem test_refuses_second_assignment :
    refusalOf (loaded [(0, levelsOf 32 0), (1, [])] [lineP] []) = some (.netAssignedTwice 1) := by decide
/-- A 32-bit literal of 2^40 is no literal (R40): the line is never ready. -/
theorem test_refuses_literal_beyond_its_width :
    refusalOf (loaded [] [{ block := .encoder, dst := 1, src := .literal 32 0x10000000000, unit := 0 }] []) =
      some .sourceNeverKnown := by decide
theorem test_refuses_unknown_source : refusalOf (loaded [] [lineP, lineQ] []) = some .sourceNeverKnown := by decide

/-! ### Witnesses: for every statement with premises, something that meets them -/

/-- EncodedInstrDecodesBack. -/
theorem test_witness_wellFormed :
    (Instr.encode 0xFFFFFFFF#32).wellFormed = true ∧ (Instr.decode 0#16).wellFormed = true := by
  decide

/-- DecodedSignalIsTheEncoding, both blocks. -/
theorem test_witness_decodes :
    decodePort .encoder (levelsOf 32 0xFFFFFFFF) = .ok (.encode 0xFFFFFFFF#32) ∧
    decodePort .decoder (levelsOf 16 0) = .ok (.decode 0#16) := by decide

/-- EncodeUnderflowGivesSignedZero: the first clause at both ends of the class, the third at both ends of exponent
field 0. -/
theorem test_witness_underflow :
    encRebiased 0x00000000#32 ≤ 0 ∧ encRebiased 0xB87FFFFF#32 ≤ 0 ∧ ¬ encRebiased 0x38800000#32 ≤ 0 ∧
    (fp32Exp 0x80000000#32).toNat = 0 ∧ (fp32Exp 0x007FFFFF#32).toNat = 0 := by decide

/-- EncodeOverflowGivesSignedInfinity, likewise. -/
theorem test_witness_overflow :
    31 ≤ encRebiased 0x47800000#32 ∧ 31 ≤ encRebiased 0xFFFFFFFF#32 ∧ ¬ 31 ≤ encRebiased 0x477FFFFF#32 ∧
    (fp32Exp 0xFF800000#32).toNat = 255 ∧ (fp32Exp 0x7FFFFFFF#32).toNat = 255 := by decide

/-- EncodeClassesByMagnitude, an operand with a value, and the second clause of EncodeInTermsOfValues: -2.5. -/
theorem test_witness_value :
    fp32Class 0xC0200000#32 = .normal ∧ fp32Value 0xC0200000#32 = some (-5 / 2) ∧
    (2 : ℚ) ^ (-14 : ℤ) ≤ |(-5 / 2 : ℚ)| ∧ |(-5 / 2 : ℚ)| < 65536 :=
  ⟨by decide, test_fp32Value_normal, by norm_num [abs_of_neg, zpow_neg], by norm_num [abs_of_neg]⟩

/-- EncodeInTermsOfValues, the last bound of the middle clause: -2.5 is itself an FP16 value not above |v|. -/
theorem test_witness_fp16_value : ∃ u : ℚ, fp16Value 0xC100#16 = some u ∧ |u| ≤ |(-5 / 2 : ℚ)| := by
  have hc : fp16Class 0xC100#16 = .normal := by decide
  have hs : (fp16Sign 0xC100#16).toNat = 1 := by decide
  have he : (fp16Exp 0xC100#16).toNat = 16 := by decide
  have hm : (fp16Mant 0xC100#16).toNat = 256 := by decide
  refine ⟨-5 / 2, ?_, le_refl _⟩
  rw [fp16Value, hc, hs, he, hm]
  norm_num [patternValue]

/-- EncodeInTermsOfValues, first clause: zero is below 2^-14. -/
theorem test_witness_value_zero : fp32Value 0x80000000#32 = some 0 ∧ |(0 : ℚ)| < (2 : ℚ) ^ (-14 : ℤ) := by
  have hc : fp32Class 0x80000000#32 = .zero := by decide
  refine ⟨?_, by norm_num [zpow_neg]⟩
  rw [fp32Value, hc]
  rfl

/-- EncodeInTermsOfValues, third clause, at its boundary: 65536 (the fourth clause: test_pattern_classes). -/
theorem test_witness_value_overflow : fp32Value 0x47800000#32 = some 65536 ∧ (65536 : ℚ) ≤ |(65536 : ℚ)| := by
  have hc : fp32Class 0x47800000#32 = .normal := by decide
  have hs : (fp32Sign 0x47800000#32).toNat = 0 := by decide
  have he : (fp32Exp 0x47800000#32).toNat = 143 := by decide
  have hm : (fp32Mant 0x47800000#32).toNat = 0 := by decide
  refine ⟨?_, by norm_num⟩
  rw [fp32Value, hc, hs, he, hm]
  norm_num [patternValue]

/-- OverflowClampExactly, the disputed range at both ends. -/
theorem test_witness_disputed_range :
    0x477FF000 ≤ (0x477FF000#32).toNat ∧ (0x477FFFFF#32).toNat ≤ 0x477FFFFF := by decide

/-- EncodeClassesByMagnitude, the operands without a value. -/
theorem test_witness_no_value : fp32Value 0x7F800000#32 = none := by
  have hc : fp32Class 0x7F800000#32 = .infinity := by decide
  rw [fp32Value, hc]
  rfl

/-- EncodeNormalKeepsSignExponentAndUpperMantissa, DecodeAfterEncodeByClass and TruncationErrorIsBounded at both
ends of the normal class. -/
theorem test_witness_normal :
    encRebiased 0x38800000#32 = 1 ∧ encRebiased 0xC77FFFFF#32 = 30 ∧
    (fp32Exp 0x38800000#32).toNat = 113 ∧ (fp32Exp 0xC77FFFFF#32).toNat = 142 ∧
    (fp32Exp 0x387FFFFF#32).toNat = 112 ∧ (fp32Exp 0x47800000#32).toNat = 143 := by decide

/-- EncodeIgnoresLowerMantissa: two operands that differ in the dropped bits only. -/
theorem test_witness_lower :
    fp32Sign 0x3F800000#32 = fp32Sign 0x3F801FFF#32 ∧ fp32Exp 0x3F800000#32 = fp32Exp 0x3F801FFF#32 ∧
    fp32Upper 0x3F800000#32 = fp32Upper 0x3F801FFF#32 ∧ (0x3F800000#32 : Word32) ≠ 0x3F801FFF#32 := by decide

/-- The premises on DECODE operands, each class at its ends, with and without a mantissa. -/
theorem test_witness_decode_classes :
    ((fp16Exp 0x8000#16).toNat = 0 ∧ (fp16Mant 0x8000#16).toNat = 0) ∧
    ((fp16Exp 0x83FF#16).toNat = 0 ∧ (fp16Mant 0x83FF#16).toNat ≠ 0) ∧
    (fp16Exp 0x0400#16).toNat = 1 ∧ (fp16Exp 0xFBFF#16).toNat = 30 ∧
    ((fp16Exp 0xFC00#16).toNat = 31 ∧ (fp16Mant 0xFC00#16).toNat = 0) ∧
    ((fp16Exp 0x7C01#16).toNat = 31 ∧ (fp16Mant 0x7C01#16).toNat ≠ 0) ∧
    fp16Class 0x0001#16 = .subnormal ∧ fp16Class 0x7C01#16 = .nan := by decide

/-- DecodeInTermsOfValues, last clause. -/
theorem test_witness_subnormal_value :
    fp16Class 0x0001#16 = .subnormal ∧ fp16Value 0x0001#16 = some (1 / 2 ^ 24) :=
  ⟨by decide, test_fp16Value_subnormal⟩

/-- OrderAndImages: words in order, and equal results. -/
theorem test_witness_order :
    (0x387FFFFF#32).toNat % 2 ^ 31 ≤ (0xB8800000#32).toNat % 2 ^ 31 ∧
    (0x83FF#16).toNat % 2 ^ 15 < (0x0400#16).toNat % 2 ^ 15 ∧
    decodeHalf 0x0001#16 = decodeHalf 0x0001#16 := by decide

/-- ResultDependsOnOperandAlone: two different states. -/
theorem test_witness_two_runs :
    (∃ t t', exec (.encode 1#32) State.reset = .next t ∧ exec (.encode 1#32) (loaded [] [lineP] [5]) = .next t') ∧
    (∃ t t', exec (.decode 1#16) State.reset = .next t ∧ exec (.decode 1#16) (loaded [] [lineP] [5]) = .next t') :=
  ⟨⟨_, _, rfl, rfl⟩, ⟨_, _, rfl, rfl⟩⟩

/-- InstancesAreIndependent: two encoders of different number, and an encoder and a decoder of the same. -/
theorem test_witness_instances :
    State.reset.wf ∧ ((Instr.encode 1#32).block ≠ (Instr.decode 1#16).block) ∧ (0 : Nat) ≠ 1 ∧
    (∃ a b c d, exec (.encode 1#32) { State.reset with wired := 0 } = .next a ∧
      exec (.encode 2#32) { a with wired := 1 } = .next b ∧
      exec (.encode 2#32) { State.reset with wired := 1 } = .next c ∧
      exec (.encode 1#32) { c with wired := 0 } = .next d) :=
  ⟨by decide, by decide, by decide, _, _, _, _, rfl, rfl, rfl, rfl⟩

/-- StepRunsTheDecodedInstr, StepGivesTheNetItsResult and the four invariants: a line that can be evaluated, in a
state that meets them. -/
theorem test_witness_step :
    nextLine (loaded [(0, levelsOf 32 0x3F803FFF)] [lineP] []) = some (lineP, []) ∧
    tableFind lineP.dst [(0, levelsOf 32 0x3F803FFF)] = none ∧
    sourceSignal [(0, levelsOf 32 0x3F803FFF)] lineP.src = some (levelsOf 32 0x3F803FFF) ∧
    decodePort lineP.block (levelsOf 32 0x3F803FFF) = .ok (.encode 0x3F803FFF#32) ∧
    (loaded [(0, levelsOf 32 0x3F803FFF)] [lineP] []).wf := by decide

/-- StepGivesTheNetItsResult, its case for a decoder line. -/
theorem test_witness_decoder_step :
    nextLine (loaded [(1, levelsOf 16 0x3C01)] [lineQ] []) = some (lineQ, []) ∧
    tableFind lineQ.dst [(1, levelsOf 16 0x3C01)] = none ∧
    sourceSignal [(1, levelsOf 16 0x3C01)] lineQ.src = some (levelsOf 16 0x3C01) ∧
    decodePort lineQ.block (levelsOf 16 0x3C01) = .ok (.decode 0x3C01#16) := by decide

theorem test_witness_step_answers :
    ∃ t, step (loaded [(0, levelsOf 32 0x3F803FFF)] [lineP] []) = .next t := ⟨_, rfl⟩

theorem test_witness_single_assignment :
    SingleAssignment (loaded [(0, levelsOf 32 0x3F803FFF)] [lineP] []) := by
  refine ⟨by decide, ?_⟩
  intro l hl
  obtain rfl : l = lineP := by simpa [loaded] using hl
  rfl

theorem test_witness_nets_two_valued : NetsTwoValued (loaded [(0, levelsOf 32 0x3F803FFF)] [lineP] []) := by
  intro n sig h
  by_cases hn : n = 0
  · subst hn
    obtain rfl : levelsOf 32 0x3F803FFF = sig := by simpa [loaded, tableFind] using h
    decide
  · simp [loaded, tableFind, hn] at h

/-- UnusableSignalIsRefused: both clauses, the first with one unusable wire. -/
theorem test_witness_unusable_signal :
    nextLine (loaded [(0, .x :: levelsOf 31 0)] [lineP] []) = some (lineP, []) ∧
    ((.x :: levelsOf 31 0 : Signal).length = lineP.block.operandWidth ∧
      signalTwoValued (.x :: levelsOf 31 0) = false) ∧
    nextLine (loaded [(0, levelsOf 31 0)] [lineP] []) = some (lineP, []) ∧
    (levelsOf 31 0).length ≠ lineP.block.operandWidth := by decide

/-- UnusableProgramIsRefused: a net assigned already; lines that wait for one another. -/
theorem test_witness_unusable_program :
    (nextLine (loaded [(0, levelsOf 32 0), (1, [])] [lineP] []) = some (lineP, []) ∧
      tableFind lineP.dst [(0, levelsOf 32 0), (1, ([] : Signal))] = some []) ∧
    ([lineP, lineQ] ≠ [] ∧ ∀ l ∈ [lineP, lineQ], sourceSignal [] l.src = none) := by decide

/-- EndedRunIsHeld and StepKeepsAssignedNets. -/
theorem test_witness_ended :
    (loaded [(0, levelsOf 32 0)] [] []).program = [] ∧
    tableFind 0 (loaded [(0, levelsOf 32 0)] [] []).nets = some (levelsOf 32 0) ∧
    (∃ t, step (loaded [(0, levelsOf 32 0)] [] []) = .next t) :=
  ⟨rfl, rfl, _, rfl⟩

/-- WellFormedProgramHasMeaning: P4's first two lines. -/
theorem test_witness_program :
    programWellFormed (knownNets [(0, levelsOf 32 0x3F803FFF)]) [lineP, lineQ] = true := by decide

/-- EveryScheduleGivesTheProgramsMeaning: the same lines written in the other order, with a choice made. -/
theorem test_witness_program_gives :
    tableSorted (loaded [(0, levelsOf 32 0x3F803FFF)] [lineQ, lineP] [3]).nets ∧
    ProgramGives (loaded [(0, levelsOf 32 0x3F803FFF)] [lineQ, lineP] [3])
      [(0, levelsOf 32 0x3F803FFF), (1, levelsOf 16 0x3C01), (2, levelsOf 32 0x3F802000)] :=
  ⟨by decide, [lineP, lineQ], List.Perm.swap _ _ _, by decide⟩

end Sys2Proof.Tests
end

section
/-! The state family: what one evaluation changes and leaves unchanged, and the canonical form of the tables. -/

namespace Sys2Proof.Machine

/-! ### The ports of both blocks after a word is presented -/

@[simp] theorem f16I_presentF32 (s : State) (x : Word32) (k : Nat) : (s.presentF32 x).f16I k = s.f16I k := rfl
@[simp] theorem f32O_presentF32 (s : State) (x : Word32) (k : Nat) : (s.presentF32 x).f32O k = s.f32O k := rfl
@[simp] theorem f32I_presentF16 (s : State) (h : Word16) (k : Nat) : (s.presentF16 h).f32I k = s.f32I k := rfl
@[simp] theorem f16O_presentF16 (s : State) (h : Word16) (k : Nat) : (s.presentF16 h).f16O k = s.f16O k := rfl

/-- The word on every encoder's output port after a word is presented. -/
theorem f16O_presentF32 (s : State) (x : Word32) (k : Nat) :
    (s.presentF32 x).f16O k = if k = s.wired then encodeHalf x else s.f16O k := by
  simp only [State.f16O, f32I_presentF32]
  split <;> rfl

/-- The word on every decoder's output port after a word is presented. -/
theorem f32O_presentF16 (s : State) (h : Word16) (k : Nat) :
    (s.presentF16 h).f32O k = if k = s.wired then decodeHalf h else s.f32O k := by
  simp only [State.f32O, f16I_presentF16]
  split <;> rfl

/-- The result of a completed ENCODE, on the wired encoder (R50). -/
theorem f16O_of_exec_encode {x : Word32} {s t : State} (h : exec (.encode x) s = .next t) :
    t.f16O s.wired = encodeHalf x := by
  obtain rfl : s.presentF32 x = t := Host.Outcome.next.inj h
  rw [f16O_presentF32, if_pos rfl]

/-- The result of a completed DECODE, on the wired decoder (R60). -/
theorem f32O_of_exec_decode {h : Word16} {s t : State} (he : exec (.decode h) s = .next t) :
    t.f32O s.wired = decodeHalf h := by
  obtain rfl : s.presentF16 h = t := Host.Outcome.next.inj he
  rw [f32O_presentF16, if_pos rfl]

/-! ### The canonical form along a step -/

theorem launch_keeps_wf (s : State) (l : Line) (rest : List Line) (h : s.wf) : (s.launch l rest).wf := h

theorem deliver_keeps_wf (l : Line) (s : State) (h : s.wf) : (deliver l s).wf :=
  assignNet_keeps_wf s _ _ h

theorem reset_wf : State.reset.wf := ⟨.nil, .nil, .nil⟩

/-- Where no line is left there is nothing to fetch, and the step holds the state. -/
theorem step_of_program_nil {s : State} (h : s.program = []) : step s = .next s := by
  simp [step, fetch, nextLine, h, pickReady]

/-! ### The obligations -/

/-- Settles O44: a step does nothing, or it launches a line, presents its word and delivers its result, and each of
the three keeps the canonical form. -/
theorem stepKeepsTablesCanonical : Obligations.StepKeepsTablesCanonical := by
  intro s t hs h
  obtain ⟨-, rfl⟩ | ⟨l, rest, -, i, -, -, -, -, rfl⟩ := step_cases h
  case inl => exact hs
  case inr => exact deliver_keeps_wf l _ (afterExec_keeps_wf i _ (launch_keeps_wf s l rest hs))

/-- Settles O15: ENCODE sets one entry of one table, so every port but those of the wired encoder keeps its word. -/
theorem encodeCompletesAndFrames : Obligations.EncodeCompletesAndFrames := by
  intro x s
  have hin : (s.presentF32 x).f32I s.wired = x := by rw [f32I_presentF32, if_pos rfl]
  have hother : ∀ k, k ≠ s.wired →
      (s.presentF32 x).f32I k = s.f32I k ∧ (s.presentF32 x).f16O k = s.f16O k := fun k hk => by
    rw [f32I_presentF32, f16O_presentF32, if_neg hk, if_neg hk]
    exact ⟨rfl, rfl⟩
  exact ⟨s.presentF32 x, exec_eq (.encode x) s, hin, f16O_of_exec_encode (exec_eq (.encode x) s), hother,
    fun k => ⟨f16I_presentF32 s x k, f32O_presentF32 s x k⟩, presentF32_nets s x, presentF32_program s x,
    presentF32_schedule s x, presentF32_wired s x⟩

/-- Settles O21: DECODE sets one entry of one table, so every port but those of the wired decoder keeps its word. -/
theorem decodeCompletesAndFrames : Obligations.DecodeCompletesAndFrames := by
  intro h s
  have hin : (s.presentF16 h).f16I s.wired = h := by rw [f16I_presentF16, if_pos rfl]
  have hother : ∀ k, k ≠ s.wired →
      (s.presentF16 h).f16I k = s.f16I k ∧ (s.presentF16 h).f32O k = s.f32O k := fun k hk => by
    rw [f16I_presentF16, f32O_presentF16, if_neg hk, if_neg hk]
    exact ⟨rfl, rfl⟩
  exact ⟨s.presentF16 h, exec_eq (.decode h) s, hin, f32O_of_exec_decode (exec_eq (.decode h) s), hother,
    fun k => ⟨f32I_presentF16 s h k, f16O_presentF16 s h k⟩, presentF16_nets s h, presentF16_program s h,
    presentF16_schedule s h, presentF16_wired s h⟩

/-- Settles O35: both results are the conversion of the one word. -/
theorem resultDependsOnOperandAlone : Obligations.ResultDependsOnOperandAlone := by
  constructor
  case left =>
    intro x s s' t t' h h'
    rw [f16O_of_exec_encode h, f16O_of_exec_encode h']
  case right =>
    intro x s s' t t' h h'
    rw [f32O_of_exec_decode h, f32O_of_exec_decode h']

/-- Settles O43: at reset every table and the program are empty. -/
theorem resetMeetsTheInvariants : Obligations.ResetMeetsTheInvariants := by
  have hsingle : SingleAssignment State.reset := ⟨List.nodup_nil, List.forall_mem_nil _⟩
  have htwo : NetsTwoValued State.reset := fun n sig h => nomatch (h : none = some sig)
  have hended : Ended State.reset := rfl
  exact ⟨reset_wf, hsingle, htwo, hended, step_of_program_nil hended⟩

end Sys2Proof.Machine
end

section
/-! The memory family: evaluations on different instances commute, and so do the lines of a program that are ready
together (R26), which is why every schedule gives the program's meaning (R112). -/

namespace Sys2Proof.Machine

/-! ### Evaluations on different instances -/

/-- Updates of a canonical table under different keys commute. -/
theorem tablePut_comm {α : Type} {k m : Nat} (v w : α) {t : Table α} (ht : tableSorted t) (h : k ≠ m) :
    tablePut m w (tablePut k v t) = tablePut k v (tablePut m w t) := by
  refine table_ext (tablePut_keeps_sorted _ _ _ (tablePut_keeps_sorted _ _ _ ht))
    (tablePut_keeps_sorted _ _ _ (tablePut_keeps_sorted _ _ _ ht)) fun n => ?_
  by_cases hm : n = m
  · have hk : n ≠ k := fun hk => h (hk.symm.trans hm)
    simp only [tableFind_tablePut, if_pos hm, if_neg hk]
  · simp only [tableFind_tablePut, if_neg hm]

/-- Two words presented to different input ports leave the same state in either order, up to the wiring. -/
theorem afterExec_comm (i j : Instr) {k l : Nat} {s : State} (hs : s.wf) (h : i.block ≠ j.block ∨ k ≠ l) :
    afterExec j { afterExec i { s with wired := k } with wired := l } =
      { afterExec i { afterExec j { s with wired := l } with wired := k } with wired := l } := by
  obtain ⟨henc, hdec, -⟩ := hs
  cases i with
  | encode x =>
    cases j with
    | encode y =>
      have hkl : k ≠ l := h.resolve_left fun hb => hb rfl
      simp only [afterExec, State.presentF32, tablePut_comm x y henc hkl]
    | decode y => rfl
  | decode x =>
    cases j with
    | encode y => rfl
    | decode y =>
      have hkl : k ≠ l := h.resolve_left fun hb => hb rfl
      simp only [afterExec, State.presentF16, tablePut_comm x y hdec hkl]

/-! ### The meaning of a line -/

/-- A line has a meaning exactly where its source is known and decodes at its block and its net is free; the
meaning gives the net the operation's result. -/
theorem lineMeaning_eq_some_iff {nets nets' : Table Signal} {l : Line} :
    lineMeaning nets l = some nets' ↔
      ∃ sig i, sourceSignal nets l.src = some sig ∧ decodePort l.block sig = .ok i ∧
        tableFind l.dst nets = none ∧ tablePut l.dst (resultSignal i) nets = nets' := by
  constructor
  case mp =>
    intro h
    unfold lineMeaning at h
    split at h
    · cases h
    · next sig hsig =>
      split at h
      · next i hi hd => exact ⟨sig, i, hsig, hi, hd, Option.some.inj h⟩
      · cases h
  case mpr =>
    rintro ⟨sig, i, hsig, hi, hd, rfl⟩
    simp only [lineMeaning, hsig, hi, hd]

theorem lineMeaning_keeps_sorted {nets nets' : Table Signal} {l : Line} (hs : tableSorted nets)
    (h : lineMeaning nets l = some nets') : tableSorted nets' := by
  obtain ⟨_, _, -, -, -, rfl⟩ := lineMeaning_eq_some_iff.mp h
  exact tablePut_keeps_sorted _ _ _ hs

theorem lineReady_of_lineMeaning {nets nets' : Table Signal} {l : Line}
    (h : lineMeaning nets l = some nets') : lineReady nets l = true := by
  obtain ⟨sig, _, hsig, -⟩ := lineMeaning_eq_some_iff.mp h
  rw [lineReady, hsig, Option.isSome_some]

/-- A source that is known stays what it is when a free net gets a value. -/
theorem sourceSignal_tablePut {nets : Table Signal} {n : Nat} {src : Source} {sig : Signal} (res : Signal)
    (hfree : tableFind n nets = none) (h : sourceSignal nets src = some sig) :
    sourceSignal (tablePut n res nets) src = some sig := by
  cases src with
  | literal w v => exact h
  | net m =>
    have hfind : tableFind m nets = some sig := h
    have hm : m ≠ n := fun hm => by simp [hm, hfree] at hfind
    rw [sourceSignal, tableFind_tablePut_other res nets hm, hfind]

/-- A ready line stays ready, with the same signal, when another line has been evaluated. -/
theorem sourceSignal_of_lineMeaning {nets nets' : Table Signal} {l : Line} {src : Source} {sig : Signal}
    (hl : lineMeaning nets l = some nets') (h : sourceSignal nets src = some sig) :
    sourceSignal nets' src = some sig := by
  obtain ⟨_, _, -, -, hfree, rfl⟩ := lineMeaning_eq_some_iff.mp hl
  exact sourceSignal_tablePut _ hfree h

/-- Of two lines in order, the second can go first if it is ready, and the nets in the end are the same (R26). -/
theorem lineMeaning_comm {nets nets₁ nets₂ : Table Signal} {l m : Line} (hs : tableSorted nets)
    (hr : lineReady nets l = true) (hm : lineMeaning nets m = some nets₁)
    (hl : lineMeaning nets₁ l = some nets₂) :
    ∃ nets', lineMeaning nets l = some nets' ∧ lineMeaning nets' m = some nets₂ := by
  obtain ⟨sigl, hsigl⟩ := Option.isSome_iff_exists.mp hr
  have hsigl₁ := sourceSignal_of_lineMeaning hm hsigl
  obtain ⟨sigm, im, hsigm, him, hfreem, rfl⟩ := lineMeaning_eq_some_iff.mp hm
  obtain ⟨sig, il, hsig, hil, hfreel₁, rfl⟩ := lineMeaning_eq_some_iff.mp hl
  obtain rfl : sigl = sig := Option.some.inj (hsigl₁.symm.trans hsig)
  have hne : l.dst ≠ m.dst := fun h => by simp [h, tableFind_tablePut_same] at hfreel₁
  have hfreel : tableFind l.dst nets = none := by rwa [tableFind_tablePut_other _ _ hne] at hfreel₁
  have hfreem₁ : tableFind m.dst (tablePut l.dst (resultSignal il) nets) = none := by
    rwa [tableFind_tablePut_other _ _ hne.symm]
  exact ⟨_, lineMeaning_eq_some_iff.mpr ⟨sigl, il, hsigl, hil, hfreel, rfl⟩,
    lineMeaning_eq_some_iff.mpr
      ⟨sigm, im, sourceSignal_tablePut _ hfreel hsigm, him, hfreem₁, tablePut_comm _ _ hs hne⟩⟩

/-! ### The meaning of a program -/

theorem programMeaning_cons_eq_some_iff {nets final : Table Signal} {l : Line} {ls : List Line} :
    programMeaning nets (l :: ls) = some final ↔
      ∃ nets', lineMeaning nets l = some nets' ∧ programMeaning nets' ls = some final := by
  rw [programMeaning]
  cases lineMeaning nets l <;> simp

/-- A ready line of a program can be evaluated first: the other lines still give the program's meaning. -/
theorem programMeaning_ready_first {nets final : Table Signal} {before after : List Line} {l : Line}
    (hs : tableSorted nets) (hr : lineReady nets l = true)
    (h : programMeaning nets (before ++ l :: after) = some final) :
    ∃ nets', lineMeaning nets l = some nets' ∧ programMeaning nets' (before ++ after) = some final := by
  induction before generalizing nets with
  | nil => exact programMeaning_cons_eq_some_iff.mp h
  | cons m before ih =>
    obtain ⟨nets₁, hm, hrest⟩ := programMeaning_cons_eq_some_iff.mp h
    obtain ⟨sig, hsig⟩ := Option.isSome_iff_exists.mp hr
    have hr₁ : lineReady nets₁ l = true :=
      Option.isSome_iff_exists.mpr ⟨sig, sourceSignal_of_lineMeaning hm hsig⟩
    obtain ⟨nets₂, hl, hfinal⟩ := ih (lineMeaning_keeps_sorted hs hm) hr₁ hrest
    obtain ⟨nets', hl', hm'⟩ := lineMeaning_comm hs hr hm hl
    exact ⟨nets', hl', programMeaning_cons_eq_some_iff.mpr ⟨nets₂, hm', hfinal⟩⟩

/-- While lines are left, a program that has a meaning has a ready line, and the schedule takes one. -/
theorem nextLine_of_programGives {s : State} {final : Table Signal} (h : ProgramGives s final)
    (hne : s.program ≠ []) : ∃ l rest, nextLine s = some (l, rest) := by
  obtain ⟨lines, hperm, hmean⟩ := h
  cases lines with
  | nil => exact absurd hperm.nil_eq.symm hne
  | cons m ls =>
    obtain ⟨_, hm, -⟩ := programMeaning_cons_eq_some_iff.mp hmean
    have hmem : m ∈ s.program := hperm.subset List.mem_cons_self
    obtain ⟨⟨l, rest⟩, hn⟩ := nextLine_isSome hmem (lineReady_of_lineMeaning hm)
    exact ⟨l, rest, hn⟩

/-- Whichever line the schedule takes, it has a meaning, and the lines left give the program's meaning from there. -/
theorem programGives_nextLine {s : State} {final : Table Signal} {l : Line} {rest : List Line}
    (hs : tableSorted s.nets) (h : ProgramGives s final) (hn : nextLine s = some (l, rest)) :
    ∃ nets' lines, lineMeaning s.nets l = some nets' ∧ lines.Perm rest ∧
      programMeaning nets' lines = some final := by
  obtain ⟨lines, hperm, hmean⟩ := h
  obtain ⟨pre, post, hprog, rfl, hr⟩ := pickReady_some hn
  have hl : l ∈ lines := hperm.mem_iff.mpr (by simp [hprog])
  obtain ⟨before, after, rfl⟩ := List.append_of_mem hl
  obtain ⟨nets', hl', hmean'⟩ := programMeaning_ready_first hs hr hmean
  have hcons : (l :: (before ++ after)).Perm (l :: (pre ++ post)) :=
    List.perm_middle.symm.trans ((hprog ▸ hperm).trans List.perm_middle)
  exact ⟨nets', before ++ after, hl', hcons.cons_inv, hmean'⟩

/-- One step of a program that has a meaning: it completes, and one line fewer gives the same meaning. -/
theorem step_keeps_programGives {s : State} {final : Table Signal} (hs : tableSorted s.nets)
    (h : ProgramGives s final) (hne : s.program ≠ []) :
    ∃ t, step s = .next t ∧ tableSorted t.nets ∧ ProgramGives t final ∧
      s.program.length = t.program.length + 1 := by
  obtain ⟨l, rest, hn⟩ := nextLine_of_programGives h hne
  obtain ⟨nets', lines, hl, hperm, hmean⟩ := programGives_nextLine hs h hn
  have hsorted := lineMeaning_keeps_sorted hs hl
  obtain ⟨sig, i, hsig, hi, hd, rfl⟩ := lineMeaning_eq_some_iff.mp hl
  have hnets := nets_after_line hi s rest
  have hprog : (deliver l (afterExec i (s.launch l rest))).program = rest := by simp
  have hlen : s.program.length = rest.length + 1 := by
    obtain ⟨pre, post, hp, rfl, -⟩ := pickReady_some hn
    simp only [hp, List.length_append, List.length_cons]
    omega
  exact ⟨_, step_eq_next hn hd hsig hi, hnets ▸ hsorted,
    ⟨lines, hprog.symm ▸ hperm, hnets.symm ▸ hmean⟩, hprog.symm ▸ hlen⟩

/-- Where every line has its result, the nets are the program's meaning. -/
theorem nets_of_programGives_nil {s : State} {final : Table Signal} (h : ProgramGives s final)
    (hp : s.program = []) : s.nets = final := by
  obtain ⟨lines, hperm, hmean⟩ := h
  obtain rfl : lines = [] := (hp ▸ hperm).eq_nil
  exact Option.some.inj hmean

/-- The run of a program that has a meaning, by induction on the number of lines left. -/
theorem run_of_programGives {s : State} {final : Table Signal} {n : Nat} (hlen : s.program.length = n)
    (hs : tableSorted s.nets) (h : ProgramGives s final) :
    ∃ t, Sys2Proof.core.run n s = .next t ∧ Ended t ∧ t.nets = final := by
  induction n generalizing s with
  | zero =>
    have hp : s.program = [] := List.eq_nil_of_length_eq_zero hlen
    exact ⟨s, run_zero s, hp, nets_of_programGives_nil h hp⟩
  | succ n ih =>
    have hne : s.program ≠ [] := List.ne_nil_of_length_eq_add_one hlen
    obtain ⟨t, ht, hst, hgives, hcount⟩ := step_keeps_programGives hs h hne
    rw [run_succ ht]
    exact ih (by omega) hst hgives

/-! ### The obligations -/

/-- Settles O49: each step takes some ready line of the program, which can as well be evaluated first, so the lines
left give the same meaning. -/
theorem everyScheduleGivesTheProgramsMeaning : Obligations.EveryScheduleGivesTheProgramsMeaning :=
  fun _ _ hs h => run_of_programGives rfl hs h

/-- Settles O36: the two words go to different input ports, so they are presented in either order. -/
theorem instancesAreIndependent : Obligations.InstancesAreIndependent := by
  intro i j k l s a b c d hs h hi hj hj' hi'
  obtain rfl := Host.Outcome.next.inj ((exec_eq i _).symm.trans hi)
  obtain rfl := Host.Outcome.next.inj ((exec_eq j _).symm.trans hj)
  obtain rfl := Host.Outcome.next.inj ((exec_eq j _).symm.trans hj')
  obtain rfl := Host.Outcome.next.inj ((exec_eq i _).symm.trans hi')
  exact afterExec_comm i j hs h

end Sys2Proof.Machine
end

section
/-! The encoding family: decode and encode of the operand words, the signals a block accepts, and the fields of the
two formats (R32 to R38). -/

namespace Sys2Proof

/-! ### What a block decodes and what it rejects -/

/-- `decodePort_ok` with its converse: exactly the signals of the right width that carry a number are decoded. -/
theorem decodePort_eq_ok_iff {b : Block} {sig : Signal} {i : Instr} :
    decodePort b sig = .ok i ↔
      sig.length = b.operandWidth ∧ ∃ v, signalValue sig = some v ∧ i = blockInstr b v := by
  constructor
  case mp => exact decodePort_ok
  case mpr =>
    rintro ⟨hlen, v, hv, rfl⟩
    simp only [decodePort, hlen, hv, if_true]

/-- Only the bits of the block's width reach the operation. -/
theorem blockInstr_mod (b : Block) (v : Nat) : blockInstr b (v % 2 ^ b.operandWidth) = blockInstr b v := by
  cases b with
  | encoder => exact congrArg Instr.encode (BitVec.eq_of_toNat_eq (by simp [Block.operandWidth]))
  | decoder => exact congrArg Instr.decode (BitVec.eq_of_toNat_eq (by simp [Block.operandWidth]))

/-- The levels of a number decode to the operation on that number, at every number (R38). -/
theorem decodePort_levelsOf (b : Block) (v : Nat) :
    decodePort b (levelsOf b.operandWidth v) = .ok (blockInstr b v) :=
  decodePort_eq_ok_iff.mpr
    ⟨length_levelsOf _ _, _, signalValue_levelsOf _ _, (blockInstr_mod b v).symm⟩

theorem decodePort_encoder_word (x : Word32) :
    decodePort .encoder (levelsOf 32 x.toNat) = .ok (.encode x) := by
  have h : decodePort .encoder (levelsOf 32 x.toNat) = .ok (blockInstr .encoder x.toNat) :=
    decodePort_levelsOf .encoder x.toNat
  rw [h, blockInstr, BitVec.ofNat_toNat, BitVec.setWidth_eq]

theorem decodePort_decoder_word (h : Word16) :
    decodePort .decoder (levelsOf 16 h.toNat) = .ok (.decode h) := by
  have hd : decodePort .decoder (levelsOf 16 h.toNat) = .ok (blockInstr .decoder h.toNat) :=
    decodePort_levelsOf .decoder h.toNat
  rw [hd, blockInstr, BitVec.ofNat_toNat, BitVec.setWidth_eq]

/-- The signal that presents an operation of a block is the levels of the operation's number. -/
theorem encodeInstr_blockInstr {b : Block} {v : Nat} (h : v < 2 ^ b.operandWidth) :
    encodeInstr (blockInstr b v) = (b, levelsOf b.operandWidth v) := by
  cases b with
  | encoder =>
    have hv : v % 2 ^ 32 = v := Nat.mod_eq_of_lt h
    rw [blockInstr, encodeInstr, BitVec.toNat_ofNat, hv, Block.operandWidth]
  | decoder =>
    have hv : v % 2 ^ 16 = v := Nat.mod_eq_of_lt h
    rw [blockInstr, encodeInstr, BitVec.toNat_ofNat, hv, Block.operandWidth]

theorem signalWellFormed_iff {b : Block} {sig : Signal} :
    signalWellFormed b sig = true ↔ sig.length = b.operandWidth ∧ signalTwoValued sig = true := by
  rw [signalWellFormed, Bool.and_eq_true, signalFits, beq_iff_eq]

theorem decodePort_wrongWidth {b : Block} {sig : Signal} (h : sig.length ≠ b.operandWidth) :
    decodePort b sig = .error (.wrongWidth sig.length b.operandWidth) := if_neg h

theorem decodePort_notTwoValued {b : Block} {sig : Signal} (hlen : sig.length = b.operandWidth)
    (h : signalTwoValued sig = false) : decodePort b sig = .error .notTwoValued := by
  have hv : signalValue sig = none := by
    rw [← Option.not_isSome_iff_eq_none, signalValue_isSome, h]
    exact Bool.false_ne_true
  simp only [decodePort, hlen, hv, if_true]

/-- A word of the table's row of a block's width decodes to that block's operation on it. -/
theorem decodeTableWord_of_block {b : Block} {n : Nat} (hb : blockOfWidth n = some b) (hn : n = b.operandWidth)
    (w : Nat) : decodeTableWord n w = some (blockInstr b w) := by
  subst hn
  simp only [decodeTableWord, hb, decodePort_levelsOf]

/-! ### The obligations -/

/-- Settles O1: the encoding of an operation is the levels of its word, and those carry the whole word. -/
theorem encodedInstrDecodesBack : Obligations.EncodedInstrDecodesBack := by
  intro i _
  cases i with
  | encode x => exact decodePort_encoder_word x
  | decode h => exact decodePort_decoder_word h

/-- Settles O2: a signal that decodes is the levels of the number it carries. -/
theorem decodedSignalIsTheEncoding : Obligations.DecodedSignalIsTheEncoding := by
  intro b sig i h
  obtain ⟨hlen, v, hv, rfl⟩ := decodePort_ok h
  have hlt : v < 2 ^ b.operandWidth := hlen ▸ signalValue_lt hv
  have hsig : levelsOf b.operandWidth v = sig := hlen ▸ levelsOf_signalValue hv
  rw [encodeInstr_blockInstr hlt, hsig]

/-- Settles O3: a signal of the right width decodes exactly when it carries a number, that is when every wire is
two-valued. -/
theorem portAcceptsExactlyTwoValuedOperands : Obligations.PortAcceptsExactlyTwoValuedOperands := by
  intro b sig
  rw [signalWellFormed_iff, ← signalValue_isSome, Option.isSome_iff_exists]
  constructor
  case mp =>
    rintro ⟨i, h⟩
    obtain ⟨hlen, v, hv, -⟩ := decodePort_ok h
    exact ⟨hlen, v, hv⟩
  case mpr =>
    rintro ⟨hlen, v, hv⟩
    exact ⟨blockInstr b v, decodePort_eq_ok_iff.mpr ⟨hlen, v, hv, rfl⟩⟩

/-- Settles O5: each width is that of one block, or of none. -/
theorem tableWordsDecodeToTheirRows : Obligations.TableWordsDecodeToTheirRows :=
  ⟨decodeTableWord_of_block (b := .encoder) rfl rfl _, decodeTableWord_of_block (b := .encoder) rfl rfl _,
    decodeTableWord_of_block (b := .decoder) rfl rfl _, decodeTableWord_of_block (b := .decoder) rfl rfl _, rfl⟩

end Sys2Proof

namespace Sys2Proof.Machine

/-- Settles O4: every word is a number of its port's width, and no operation has a failure path. -/
theorem everyOperandWordIsLegal : Obligations.EveryOperandWordIsLegal := by
  constructor
  case left =>
    intro x s
    have hexec := exec_eq (.encode x) s
    exact ⟨decodePort_encoder_word x, _, hexec, f16O_of_exec_encode hexec⟩
  case right =>
    intro h s
    have hexec := exec_eq (.decode h) s
    exact ⟨decodePort_decoder_word h, _, hexec, f32O_of_exec_decode hexec⟩

/-- Settles O6: neighbouring fields join to one field, and the field of all the bits is the pattern. -/
theorem patternsAreTheirFields : Obligations.PatternsAreTheirFields := by
  constructor
  case left =>
    intro x
    have hse : fp32Sign x ++ fp32Exp x = x.extractLsb' 23 9 :=
      BitVec.extractLsb'_append_extractLsb'_eq_extractLsb' rfl
    have hall : x.extractLsb' 23 9 ++ fp32Mant x = x.extractLsb' 0 32 :=
      BitVec.extractLsb'_append_extractLsb'_eq_extractLsb' rfl
    have hmant : fp32Upper x ++ fp32Lower x = fp32Mant x :=
      BitVec.extractLsb'_append_extractLsb'_eq_extractLsb' rfl
    exact ⟨by rw [hse, hall, BitVec.extractLsb'_eq_self], hmant.symm⟩
  case right =>
    intro h
    have hse : fp16Sign h ++ fp16Exp h = h.extractLsb' 10 6 :=
      BitVec.extractLsb'_append_extractLsb'_eq_extractLsb' rfl
    have hall : h.extractLsb' 10 6 ++ fp16Mant h = h.extractLsb' 0 16 :=
      BitVec.extractLsb'_append_extractLsb'_eq_extractLsb' rfl
    rw [hse, hall, BitVec.extractLsb'_eq_self]

end Sys2Proof.Machine
end

section
/-! The encoding family: the steps that are refused, by the reason `fetch` gives (R35, R40, R108, R112), and the step
that is not. -/

namespace Sys2Proof.Machine

/-! ### Refused steps -/

theorem step_of_fetch_error {s : State} {r : Refusal} (h : fetch s = .error r) : step s = .refused r := by
  simp only [step, h]

/-- A next line whose signal is no operand of its block is refused with the port's reason. -/
theorem step_of_decodePort_error {s : State} {l : Line} {rest : List Line} {sig : Signal} {e : PortReject}
    (hn : nextLine s = some (l, rest)) (hd : tableFind l.dst s.nets = none)
    (hs : sourceSignal s.nets l.src = some sig) (he : decodePort l.block sig = .error e) :
    step s = .refused (portRefusal e) :=
  step_of_fetch_error (by simp [fetch, hn, hd, hs, he])

/-- Where no line's source is known, no line is next. -/
theorem nextLine_eq_none {s : State} (h : ∀ l ∈ s.program, sourceSignal s.nets l.src = none) :
    nextLine s = none := by
  cases hn : nextLine s with
  | none => rfl
  | some p =>
    obtain ⟨before, after, hprog, -, hready⟩ := pickReady_some hn
    have hunknown : sourceSignal s.nets p.1.src = none := h p.1 (by simp [hprog])
    rw [lineReady, hunknown] at hready
    cases hready

/-- A literal stands for no signal exactly when its number does not fit its width (R40). -/
theorem sourceSignal_literal_eq_none_iff {nets : Table Signal} {w v : Nat} :
    sourceSignal nets (.literal w v) = none ↔ 2 ^ w ≤ v := by
  by_cases h : v < 2 ^ w
  · simp [sourceSignal_literal h, h]
  · simp [sourceSignal, literalFits, h, Nat.le_of_not_lt h]

/-! ### The obligations -/

/-- Settles O39: the port rejects such a signal, and the step is refused with the port's reason. -/
theorem unusableSignalIsRefused : Obligations.UnusableSignalIsRefused := by
  intro s l rest sig hn hd hs
  exact ⟨fun hlen hx => step_of_decodePort_error hn hd hs (decodePort_notTwoValued hlen hx),
    fun hlen => step_of_decodePort_error hn hd hs (decodePort_wrongWidth hlen)⟩

/-- Settles O40: what is fetched is an error in both cases. -/
theorem unusableProgramIsRefused : Obligations.UnusableProgramIsRefused := by
  refine ⟨?second, ?unknown, fun _ _ _ => sourceSignal_literal_eq_none_iff⟩
  case second =>
    intro s l rest sig hn hd
    exact step_of_fetch_error (by simp [fetch, hn, hd])
  case unknown =>
    intro s hne h
    exact step_of_fetch_error (by simp [fetch, nextLine_eq_none h, hne])

/-- Settles O37: what is fetched is the decoded instruction in the launched state. -/
theorem stepRunsTheDecodedInstr : Obligations.StepRunsTheDecodedInstr := by
  intro s l rest sig i hn hd hs hi
  rw [step_eq_next hn hd hs hi, exec_eq]

end Sys2Proof.Machine
end

section
/-! The encoding family: what every step keeps of the program and of the nets (R35, R40, R108). -/

namespace Sys2Proof.Machine

/-- The lines left are the program without the line that is next. -/
theorem perm_of_nextLine {s : State} {l : Line} {rest : List Line} (h : nextLine s = some (l, rest)) :
    s.program.Perm (l :: rest) := by
  obtain ⟨before, after, hprog, rfl, -⟩ := pickReady_some h
  exact hprog ▸ List.perm_middle

/-- Every step either holds the state or evaluates one line, which leaves the program and puts its result in its
net, free until then. -/
theorem program_and_nets_of_step {s t : State} (h : step s = .next t) :
    t = s ∨ ∃ l i, s.program.Perm (l :: t.program) ∧ tableFind l.dst s.nets = none ∧
      t.nets = tablePut l.dst (resultSignal i) s.nets := by
  obtain ⟨-, rfl⟩ | ⟨l, rest, sig, i, hn, hd, -, hi, rfl⟩ := step_cases h
  case inl => exact .inl rfl
  case inr =>
    have hprog : (deliver l (afterExec i (s.launch l rest))).program = rest := by simp
    exact .inr ⟨l, i, by rw [hprog]; exact perm_of_nextLine hn, hd, nets_after_line hi s rest⟩

theorem signalTwoValued_resultSignal (i : Instr) : signalTwoValued (resultSignal i) = true := by
  cases i with
  | encode x => exact signalTwoValued_levelsOf _ _
  | decode h => exact signalTwoValued_levelsOf _ _

/-! ### The obligations -/

/-- Settles O45: the net that gets a value is the evaluated line's, and no line left assigns it. -/
theorem stepKeepsSingleAssignment : Obligations.StepKeepsSingleAssignment := by
  intro s t ⟨hnodup, hfree⟩ h
  obtain rfl | ⟨l, i, hperm, -, hnets⟩ := program_and_nets_of_step h
  case inl => exact ⟨hnodup, hfree⟩
  case inr =>
    have hcons : (l.dst :: t.program.map Line.dst).Nodup := (hperm.map Line.dst).nodup_iff.mp hnodup
    obtain ⟨hl, hrest⟩ := List.nodup_cons.mp hcons
    refine ⟨hrest, fun m hm => ?_⟩
    have hne : m.dst ≠ l.dst := fun heq => hl (heq ▸ List.mem_map_of_mem hm)
    rw [hnets, tableFind_tablePut_other _ _ hne]
    exact hfree m (hperm.symm.subset (List.mem_cons_of_mem l hm))

/-- Settles O46: the one new value is a result, and a result is the levels of a number. -/
theorem stepKeepsNetsTwoValued : Obligations.StepKeepsNetsTwoValued := by
  intro s t hs h
  obtain rfl | ⟨l, i, -, -, hnets⟩ := program_and_nets_of_step h
  case inl => exact hs
  case inr =>
    intro n sig hfind
    rw [hnets, tableFind_tablePut] at hfind
    split at hfind
    · exact Option.some.inj hfind ▸ signalTwoValued_resultSignal i
    · exact hs n sig hfind

/-- Settles O47: the net that gets a value had none. -/
theorem stepKeepsAssignedNets : Obligations.StepKeepsAssignedNets := by
  intro s t n sig h hn
  obtain rfl | ⟨l, i, -, hfree, hnets⟩ := program_and_nets_of_step h
  case inl => exact hn
  case inr =>
    have hne : n ≠ l.dst := fun heq => by simp [← heq, hn] at hfree
    rw [hnets, tableFind_tablePut_other _ _ hne, hn]

end Sys2Proof.Machine
end

section
/-! The encoding family: the well-formedness check of a program is sound (R40, R112). What the check knows of the nets
is kept equal to what the nets hold, line by line. -/

namespace Sys2Proof.Machine

/-- What a program may know of a net: its width, if every wire is two-valued. -/
def usableWidth (sig : Signal) : Option Nat :=
  if signalTwoValued sig then some sig.length else none

/-- The check knows of each net exactly what the net holds. -/
def KnowsNets (known : KnownNets) (nets : Table Signal) : Prop :=
  ∀ n, known.lookup n = (tableFind n nets).map usableWidth

theorem usableWidth_eq_some_iff {sig : Signal} {w : Nat} :
    usableWidth sig = some w ↔ sig.length = w ∧ signalTwoValued sig = true := by
  unfold usableWidth
  split <;> simp_all

/-- The result of a decoded line has the width that the check expects of it. -/
theorem usableWidth_resultSignal {b : Block} {sig : Signal} {i : Instr} (h : decodePort b sig = .ok i) :
    usableWidth (resultSignal i) = some b.resultWidth := by
  obtain ⟨-, v, -, rfl⟩ := decodePort_ok h
  refine usableWidth_eq_some_iff.mpr ⟨?_, signalTwoValued_resultSignal _⟩
  cases b with
  | encoder => exact length_levelsOf _ _
  | decoder => exact length_levelsOf _ _

/-- What is known of a net after one more net is known, as `tableFind_tablePut` says it of tables. -/
theorem lookup_knownNets_cons (known : KnownNets) (n m : Nat) (width : Option Nat) :
    List.lookup m ((n, width) :: known) = if m = n then some width else known.lookup m := by
  rw [List.lookup_cons]
  split
  · next h => rw [if_pos (beq_iff_eq.mp h)]
  · next h => rw [if_neg (beq_eq_false_iff_ne.mp h)]

theorem knowsNets_knownNets (nets : Table Signal) : KnowsNets (knownNets nets) nets := by
  intro n
  induction nets with
  | nil => rfl
  | cons e nets ih =>
    have hcons : knownNets (e :: nets) = (e.1, usableWidth e.2) :: knownNets nets := rfl
    rw [hcons, lookup_knownNets_cons, tableFind, ih, apply_ite (Option.map usableWidth), Option.map_some]

theorem knowsNets_tablePut {known : KnownNets} {nets : Table Signal} (h : KnowsNets known nets) (n : Nat)
    (sig : Signal) : KnowsNets ((n, usableWidth sig) :: known) (tablePut n sig nets) := by
  intro m
  rw [lookup_knownNets_cons, tableFind_tablePut, h m, apply_ite (Option.map usableWidth), Option.map_some]

/-- A line that assigns a net of which nothing is known assigns a free net. -/
theorem tableFind_of_targetFresh {known : KnownNets} {nets : Table Signal} {l : Line} (hk : KnowsNets known nets)
    (h : l.targetFresh known = true) : tableFind l.dst nets = none := by
  have hlookup : known.lookup l.dst = none := by
    have hnone : ∀ e ∈ known, e.1 ≠ l.dst := by simpa [Line.targetFresh, KnownNets.has] using h
    exact List.lookup_eq_none_iff.mpr fun e he => bne_iff_ne.mpr (hnone e he).symm
  rwa [hk l.dst, Option.map_eq_none_iff] at hlookup

/-- A line whose source fits presents an operand of its block. -/
theorem decodePort_of_sourceFits {known : KnownNets} {nets : Table Signal} {l : Line} (hk : KnowsNets known nets)
    (h : l.sourceFits known = true) :
    ∃ sig i, sourceSignal nets l.src = some sig ∧ decodePort l.block sig = .ok i := by
  unfold Line.sourceFits at h
  split at h
  · next n hsrc =>
    rw [beq_iff_eq, hk n, Option.map_eq_some_iff] at h
    obtain ⟨sig, hfind, hwidth⟩ := h
    have hwf := signalWellFormed_iff.mpr (usableWidth_eq_some_iff.mp hwidth)
    obtain ⟨i, hi⟩ := (portAcceptsExactlyTwoValuedOperands l.block sig).mpr hwf
    exact ⟨sig, i, hsrc ▸ hfind, hi⟩
  · next w v hsrc =>
    rw [Bool.and_eq_true, beq_iff_eq, literalFits, decide_eq_true_eq] at h
    obtain ⟨rfl, hfits⟩ := h
    exact ⟨_, _, hsrc ▸ sourceSignal_literal hfits, decodePort_levelsOf l.block v⟩

/-- A line that passes the check has a meaning, after which the check still knows what the nets hold. -/
theorem lineMeaning_of_fits {known : KnownNets} {nets : Table Signal} {l : Line} (hk : KnowsNets known nets)
    (hsrc : l.sourceFits known = true) (hdst : l.targetFresh known = true) :
    ∃ nets', lineMeaning nets l = some nets' ∧
      KnowsNets ((l.dst, some l.block.resultWidth) :: known) nets' := by
  obtain ⟨sig, i, hsig, hi⟩ := decodePort_of_sourceFits hk hsrc
  have hfree := tableFind_of_targetFresh hk hdst
  have hk' := knowsNets_tablePut hk l.dst (resultSignal i)
  rw [usableWidth_resultSignal hi] at hk'
  exact ⟨_, lineMeaning_eq_some_iff.mpr ⟨sig, i, hsig, hi, hfree, rfl⟩, hk'⟩

/-- A program that passes the check has a meaning, by induction on its lines. -/
theorem programMeaning_of_wellFormed {known : KnownNets} {nets : Table Signal} {lines : List Line}
    (hk : KnowsNets known nets) (h : programWellFormed known lines = true) :
    ∃ nets', programMeaning nets lines = some nets' := by
  induction lines generalizing known nets with
  | nil => exact ⟨nets, rfl⟩
  | cons l ls ih =>
    rw [programWellFormed, Bool.and_eq_true, Bool.and_eq_true] at h
    obtain ⟨⟨hsrc, hdst⟩, hrest⟩ := h
    obtain ⟨nets₁, hl, hk₁⟩ := lineMeaning_of_fits hk hsrc hdst
    obtain ⟨nets₂, hls⟩ := ih hk₁ hrest
    exact ⟨nets₂, programMeaning_cons_eq_some_iff.mpr ⟨nets₁, hl, hls⟩⟩

/-! ### The obligations -/

/-- Settles O48: the check starts from what the input nets hold. -/
theorem wellFormedProgramHasMeaning : Obligations.WellFormedProgramHasMeaning :=
  fun nets _ h => programMeaning_of_wellFormed (knowsNets_knownNets nets) h

end Sys2Proof.Machine
end

section
/-! The ENCODE family: the fields of the result, the three classes of operands by their exponent field, and the result
in each class (R50 to R58). -/

namespace Sys2Proof.Machine

/-! ### The fields of the results -/

/-- Every field of the ENCODE result fits its width, so none reaches into the next (R86). -/
theorem encExpOut_le (x : Word32) : encExpOut x ≤ 31 := by
  rw [encExpOut_eq]
  split <;> [skip; split] <;> omega

theorem encMantOut_lt (x : Word32) : encMantOut x < 1024 := by
  rw [encMantOut_eq]
  split <;> [skip; split] <;> omega

theorem decExpOut_le (h : Word16) : decExpOut h ≤ 255 := by
  rw [decExpOut_eq]
  split <;> [skip; split] <;> omega

@[simp] theorem fp16Sign_encodeHalf (x : Word32) : fp16Sign (encodeHalf x) = fp32Sign x := by
  have he := encExpOut_le x
  have hm := encMantOut_lt x
  apply BitVec.eq_of_toNat_eq
  rw [fp16Sign_toNat, encodeHalf_toNat, fp32Sign_toNat]
  omega

theorem fp16Exp_encodeHalf (x : Word32) : (fp16Exp (encodeHalf x)).toNat = encExpOut x := by
  have he := encExpOut_le x
  have hm := encMantOut_lt x
  rw [fp16Exp_toNat, encodeHalf_toNat]
  omega

theorem fp16Mant_encodeHalf (x : Word32) : (fp16Mant (encodeHalf x)).toNat = encMantOut x := by
  have hm := encMantOut_lt x
  rw [fp16Mant_toNat, encodeHalf_toNat]
  omega

@[simp] theorem fp32Sign_decodeHalf (h : Word16) : fp32Sign (decodeHalf h) = fp16Sign h := by
  have he := decExpOut_le h
  apply BitVec.eq_of_toNat_eq
  rw [fp32Sign_toNat, decodeHalf_toNat, fp16Sign_toNat]
  omega

/-! ### The sign bit and the sign terms (R51, R61) -/

theorem fp32Sign_getLsbD (x : Word32) : (fp32Sign x).getLsbD 0 = x.getLsbD 31 := by
  simp [fp32Sign]

theorem fp16Sign_getLsbD (h : Word16) : (fp16Sign h).getLsbD 0 = h.getLsbD 15 := by
  simp [fp16Sign]

theorem fp32_toNat_div_eq_signBit (x : Word32) : x.toNat / 2147483648 = (x.getLsbD 31).toNat := by
  have hlt := x.isLt
  have hbit : (x.getLsbD 31).toNat = x.toNat / 2147483648 % 2 := by
    rw [BitVec.getLsbD, Nat.toNat_testBit]
  omega

theorem fp16_toNat_div_eq_signBit (h : Word16) : h.toNat / 32768 = (h.getLsbD 15).toNat := by
  have hlt := h.isLt
  have hbit : (h.getLsbD 15).toNat = h.toNat / 32768 % 2 := by
    rw [BitVec.getLsbD, Nat.toNat_testBit]
  omega

theorem encSignTerm_eq_ite (x : Word32) : encSignTerm x = if x.getLsbD 31 then 0x8000#16 else 0x0000#16 := by
  apply BitVec.eq_of_toNat_eq
  rw [encSignTerm_toNat, fp32_toNat_div_eq_signBit]
  cases x.getLsbD 31 <;> rfl

theorem decSignTerm_eq_ite (h : Word16) :
    decSignTerm h = if h.getLsbD 15 then 0x80000000#32 else 0x00000000#32 := by
  apply BitVec.eq_of_toNat_eq
  rw [decSignTerm_toNat, fp16_toNat_div_eq_signBit]
  cases h.getLsbD 15 <;> rfl

/-! ### The classes by the exponent field (R54 to R56) -/

theorem encRebiased_nonpos_iff {x : Word32} : encRebiased x ≤ 0 ↔ (fp32Exp x).toNat ≤ 112 := by
  rw [encRebiased, Config.rebias]
  omega

theorem encRebiased_ge_iff {x : Word32} : 31 ≤ encRebiased x ↔ 143 ≤ (fp32Exp x).toNat := by
  rw [encRebiased, Config.rebias]
  omega

theorem encRebiased_normal_iff {x : Word32} :
    (1 ≤ encRebiased x ∧ encRebiased x ≤ 30) ↔ (113 ≤ (fp32Exp x).toNat ∧ (fp32Exp x).toNat ≤ 142) := by
  rw [encRebiased, Config.rebias]
  omega

/-- The exponent and mantissa fields of the result in the underflow class (R54). -/
theorem encFields_of_underflow {x : Word32} (h : (fp32Exp x).toNat ≤ 112) :
    encExpOut x = 0 ∧ encMantOut x = 0 := by
  rw [encExpOut_eq, encMantOut_eq, ← fp32Exp_toNat, if_pos h, if_pos h]
  exact ⟨rfl, rfl⟩

/-- The exponent and mantissa fields of the result in the overflow class (R55). -/
theorem encFields_of_overflow {x : Word32} (h : 143 ≤ (fp32Exp x).toNat) :
    encExpOut x = 31 ∧ encMantOut x = 0 := by
  have hnot : ¬ (fp32Exp x).toNat ≤ 112 := by omega
  rw [encExpOut_eq, encMantOut_eq, ← fp32Exp_toNat, if_neg hnot, if_neg hnot, if_pos h, if_pos h]
  exact ⟨rfl, rfl⟩

/-- The exponent and mantissa fields of the result in the normal class (R56). -/
theorem encFields_of_normal {x : Word32} (h : 113 ≤ (fp32Exp x).toNat ∧ (fp32Exp x).toNat ≤ 142) :
    encExpOut x = (fp32Exp x).toNat - 112 ∧ encMantOut x = (fp32Upper x).toNat := by
  have hnot : ¬ (fp32Exp x).toNat ≤ 112 := by omega
  have hnot' : ¬ 143 ≤ (fp32Exp x).toNat := by omega
  rw [encExpOut_eq, encMantOut_eq, ← fp32Exp_toNat, ← fp32Upper_toNat, if_neg hnot, if_neg hnot, if_neg hnot',
    if_neg hnot']
  exact ⟨rfl, rfl⟩

theorem encodeHalf_of_underflow {x : Word32} (h : (fp32Exp x).toNat ≤ 112) : encodeHalf x = encSignTerm x := by
  obtain ⟨he, hm⟩ := encFields_of_underflow h
  simp [encodeHalf, he, hm]

theorem encodeHalf_of_overflow {x : Word32} (h : 143 ≤ (fp32Exp x).toNat) :
    encodeHalf x = encSignTerm x ||| 0x7C00#16 := by
  obtain ⟨he, hm⟩ := encFields_of_overflow h
  simp [encodeHalf, he, hm, Config.mw16]

/-- The ENCODE result is the concatenation of its fields, given what each of the two lower ones is. -/
theorem encodeHalf_eq_append {x : Word32} {e : BitVec 5} {m : BitVec 10} (he : encExpOut x = e.toNat)
    (hm : encMantOut x = m.toNat) : encodeHalf x = fp32Sign x ++ e ++ m := by
  have he' : fp16Exp (encodeHalf x) = e := BitVec.eq_of_toNat_eq (by rw [fp16Exp_encodeHalf, he])
  have hm' : fp16Mant (encodeHalf x) = m := BitVec.eq_of_toNat_eq (by rw [fp16Mant_encodeHalf, hm])
  rw [patternsAreTheirFields.2 (encodeHalf x), fp16Sign_encodeHalf, he', hm']

/-! ### The obligations -/

/-- Settles O8: both lower fields are 0 in the underflow class, which leaves the sign term. -/
theorem encodeUnderflowGivesSignedZero : Obligations.EncodeUnderflowGivesSignedZero := by
  refine ⟨?result, fun _ => encRebiased_nonpos_iff, fun x h => ?zeroExponent, fun x => ?members⟩
  case result =>
    intro x s h
    have hexec := exec_eq (.encode x) s
    refine ⟨_, hexec, ?_⟩
    rw [f16O_of_exec_encode hexec, encodeHalf_of_underflow (encRebiased_nonpos_iff.mp h), encSignTerm_eq_ite]
  case zeroExponent => exact encRebiased_nonpos_iff.mpr (by omega)
  case members =>
    rw [encRebiased_nonpos_iff, fp32Exp_toNat]
    omega

/-- Settles O9: in the overflow class the exponent field is 31 and the mantissa field 0, under the sign term. -/
theorem encodeOverflowGivesSignedInfinity : Obligations.EncodeOverflowGivesSignedInfinity := by
  refine ⟨?result, fun _ => encRebiased_ge_iff, fun x h => ?allOnes, fun x => ?members, by decide⟩
  case result =>
    intro x s h
    have hexec := exec_eq (.encode x) s
    refine ⟨_, hexec, ?_⟩
    rw [f16O_of_exec_encode hexec, encodeHalf_of_overflow (encRebiased_ge_iff.mp h), encSignTerm_eq_ite]
    cases x.getLsbD 31 <;> rfl
  case allOnes => exact encRebiased_ge_iff.mpr (by omega)
  case members =>
    rw [encRebiased_ge_iff, fp32Exp_toNat]
    omega

/-- Settles O11: in the normal class the lower fields are the rebiased exponent and the upper mantissa. -/
theorem encodeNormalKeepsSignExponentAndUpperMantissa :
    Obligations.EncodeNormalKeepsSignExponentAndUpperMantissa := by
  refine ⟨?fields, fun _ => encRebiased_normal_iff⟩
  case fields =>
    intro x s h1 h30
    have hexp := encRebiased_normal_iff.mp ⟨h1, h30⟩
    obtain ⟨he, hm⟩ := encFields_of_normal hexp
    have hexec := exec_eq (.encode x) s
    refine ⟨_, hexec, ?_⟩
    rw [f16O_of_exec_encode hexec]
    refine ⟨fp16Sign_encodeHalf x, ?exponent, ?mantissa, ?range⟩
    case exponent =>
      rw [fp16Exp_encodeHalf, he, encRebiased, Config.rebias]
      omega
    case mantissa => exact BitVec.eq_of_toNat_eq (by rw [fp16Mant_encodeHalf, hm])
    case range =>
      have hlt := encMantOut_lt x
      rw [encodeHalf_toNat, he]
      omega

/-- Settles O12: the result is a function of the sign, the exponent field and the upper mantissa. -/
theorem encodeIgnoresLowerMantissa : Obligations.EncodeIgnoresLowerMantissa := by
  intro x y hs he hm
  apply BitVec.eq_of_toNat_eq
  simp only [encodeHalf_toNat, encExpOut_eq, encMantOut_eq, ← fp32Sign_toNat, ← fp32Exp_toNat, ← fp32Upper_toNat,
    hs, he, hm]

/-- Settles O13: the three branches of the unsigned form are the three classes, and give the same fields. -/
theorem encodeAgreesWithUnsignedForm : Obligations.EncodeAgreesWithUnsignedForm := by
  intro x
  have hlow : (fp32Exp x).ule 0x70#8 = true ↔ (fp32Exp x).toNat ≤ 112 := BitVec.ule_iff_toNat_le
  have hhigh : (0x8F#8).ule (fp32Exp x) = true ↔ 143 ≤ (fp32Exp x).toNat := BitVec.ule_iff_toNat_le
  unfold encodeHalfUnsigned
  simp only [hlow, hhigh]
  split
  case isTrue h =>
    obtain ⟨he, hm⟩ := encFields_of_underflow h
    rw [encodeHalf_eq_append (e := 0#5) (m := 0#10) he hm, BitVec.append_assoc]
    rfl
  case isFalse h =>
    split
    case isTrue h' =>
      obtain ⟨he, hm⟩ := encFields_of_overflow h'
      exact encodeHalf_eq_append he hm
    case isFalse h' =>
      have hlt := (fp32Exp x).isLt
      obtain ⟨he, hm⟩ := encFields_of_normal (x := x) (by omega)
      refine encodeHalf_eq_append (he.trans ?_) hm
      rw [BitVec.extractLsb'_toNat, BitVec.toNat_sub, Nat.shiftRight_zero, BitVec.toNat_ofNat]
      omega

/-- Settles O22: the sign terms mask one bit, and the other terms of a result do not reach its sign bit. -/
theorem signIsCopiedInEveryClass : Obligations.SignIsCopiedInEveryClass := by
  refine ⟨encSignTerm_eq_ite, fun x => ?encode, decSignTerm_eq_ite, fun h => ?decode⟩
  case encode => rw [← fp16Sign_getLsbD, fp16Sign_encodeHalf, fp32Sign_getLsbD]
  case decode => rw [← fp32Sign_getLsbD, fp32Sign_decodeHalf, fp16Sign_getLsbD]

/-- Settles O7: an exponent field of eight bits, less 112, is within nine bits of two's complement (R85). -/
theorem rebiasedExponentIsExact : Obligations.RebiasedExponentIsExact := by
  intro x
  have hlt := (fp32Exp x).isLt
  have heq : encRebiased x = ((fp32Exp x).toNat : Int) - 112 := rfl
  have hnine : (BitVec.ofInt 9 (encRebiased x)).toInt = encRebiased x := by
    apply BitVec.toInt_ofInt_eq_self <;> omega
  exact ⟨heq, by omega, by omega, hnine⟩

/-- Settles O34: both operations present their word and answer the state with it. -/
theorem noOperationStops : Obligations.NoOperationStops :=
  fun i s => ⟨afterExec i s, exec_eq i s⟩

end Sys2Proof.Machine
end

section
/-! The ENCODE family: ENCODE in terms of the values of R44 (R59). A finite value's magnitude lies between two powers of
two that its exponent field gives, in both formats, and within one exponent the mantissa fields compare as numbers. -/

namespace Sys2Proof.Machine

/-! ### Magnitudes of finite values -/

/-- The magnitude that exponent field `e` and a mantissa field `m` of `p` bits denote in a finite pattern (R44):
`patternValue` without the sign. -/
def magnitude (bias p e m : Nat) : ℚ :=
  if e = 0 then (2 : ℚ) ^ ((1 : ℤ) - (bias : ℤ)) * ((m : ℚ) / 2 ^ p)
  else (2 : ℚ) ^ ((e : ℤ) - (bias : ℤ)) * (1 + (m : ℚ) / 2 ^ p)

theorem abs_neg_one_pow_mul (s : Nat) {a b : ℚ} (ha : 0 ≤ a) (hb : 0 ≤ b) : |(-1) ^ s * a * b| = a * b := by
  rw [mul_assoc, abs_mul, abs_pow, abs_neg, abs_one, one_pow, one_mul, abs_of_nonneg (mul_nonneg ha hb)]

/-- A value has the magnitude that its fields give. -/
theorem abs_of_patternValue {emax bias p s e m : Nat} {v : ℚ}
    (h : patternValue (patternClass emax e m) bias p s e m = some v) : |v| = magnitude bias p e m := by
  unfold patternClass at h
  unfold magnitude
  split at h
  · next he =>
    rw [if_pos he]
    split at h
    · next hm =>
      obtain rfl := Option.some.inj h
      simp [hm]
    · obtain rfl := Option.some.inj h
      exact abs_neg_one_pow_mul s (by positivity) (by positivity)
  · next he =>
    rw [if_neg he]
    split at h
    · split at h <;> cases h
    · obtain rfl := Option.some.inj h
      exact abs_neg_one_pow_mul s (by positivity) (by positivity)

/-- Where the exponent field is not all ones the pattern has a value. -/
theorem patternValue_of_exp_ne {emax bias p s e m : Nat} (h : e ≠ emax) :
    ∃ v, patternValue (patternClass emax e m) bias p s e m = some v := by
  rw [patternClass, if_neg h]
  split
  · split <;> exact ⟨_, rfl⟩
  · exact ⟨_, rfl⟩

theorem zpow_sub_bias_mono (bias : Nat) {i j : Nat} (h : i ≤ j) :
    (2 : ℚ) ^ ((i : ℤ) - (bias : ℤ)) ≤ (2 : ℚ) ^ ((j : ℤ) - (bias : ℤ)) :=
  zpow_le_zpow_right₀ one_le_two (by omega)

theorem magnitude_lt_zpow_succ {bias p e m : Nat} (hm : m < 2 ^ p) :
    magnitude bias p e m < (2 : ℚ) ^ (((e + 1 : Nat) : ℤ) - (bias : ℤ)) := by
  have hfrac : (m : ℚ) / 2 ^ p < 1 := (div_lt_one (by positivity)).mpr (by exact_mod_cast hm)
  unfold magnitude
  split
  · next he =>
    subst he
    exact mul_lt_of_lt_one_right (by positivity) hfrac
  · have hdouble : (2 : ℚ) ^ (((e + 1 : Nat) : ℤ) - (bias : ℤ)) = (2 : ℚ) ^ ((e : ℤ) - (bias : ℤ)) * 2 := by
      rw [← zpow_add_one₀ two_ne_zero, Nat.cast_succ, sub_add_eq_add_sub]
    rw [hdouble]
    exact mul_lt_mul_of_pos_left (by linarith) (by positivity)

theorem zpow_le_magnitude {bias p e m : Nat} (he : e ≠ 0) :
    (2 : ℚ) ^ ((e : ℤ) - (bias : ℤ)) ≤ magnitude bias p e m := by
  rw [magnitude, if_neg he]
  exact le_mul_of_one_le_right (by positivity) (le_add_of_nonneg_right (by positivity))

/-- The exponent field alone compares a magnitude with a power of two. -/
theorem magnitude_lt_zpow_iff {bias p e m k : Nat} (hm : m < 2 ^ p) (hk : 1 ≤ k) :
    magnitude bias p e m < (2 : ℚ) ^ ((k : ℤ) - (bias : ℤ)) ↔ e < k := by
  constructor
  case mp =>
    intro h
    by_contra hke
    exact absurd h (not_lt.mpr ((zpow_sub_bias_mono bias (not_lt.mp hke)).trans (zpow_le_magnitude (by omega))))
  case mpr =>
    intro h
    exact (magnitude_lt_zpow_succ hm).trans_le (zpow_sub_bias_mono bias h)

/-! ### Magnitudes in the two formats -/

theorem abs_of_fp32Value {x : Word32} {v : ℚ} (h : fp32Value x = some v) :
    |v| = magnitude 127 23 (fp32Exp x).toNat (fp32Mant x).toNat :=
  abs_of_patternValue h

theorem abs_of_fp16Value {h : Word16} {u : ℚ} (hu : fp16Value h = some u) :
    |u| = magnitude 15 10 (fp16Exp h).toNat (fp16Mant h).toNat :=
  abs_of_patternValue hu

/-- The magnitude of a finite FP32 value is below 2^-14 exactly in the underflow class. -/
theorem fp32_abs_lt_iff_underflow {x : Word32} {v : ℚ} (h : fp32Value x = some v) :
    |v| < (2 : ℚ) ^ (-14 : ℤ) ↔ (fp32Exp x).toNat ≤ 112 := by
  rw [abs_of_fp32Value h]
  exact (magnitude_lt_zpow_iff (k := 113) (fp32Mant x).isLt (by decide)).trans Nat.lt_succ_iff

/-- The magnitude of a finite FP32 value is 65536 or more exactly in the overflow class. -/
theorem fp32_le_abs_iff_overflow {x : Word32} {v : ℚ} (h : fp32Value x = some v) :
    65536 ≤ |v| ↔ 143 ≤ (fp32Exp x).toNat := by
  have hpow : (65536 : ℚ) = (2 : ℚ) ^ (((143 : Nat) : ℤ) - ((127 : Nat) : ℤ)) := by norm_num
  rw [abs_of_fp32Value h, ← not_lt, ← not_lt, hpow]
  exact not_congr (magnitude_lt_zpow_iff (fp32Mant x).isLt (by decide))

/-- An FP16 magnitude and an FP32 magnitude of the same normal exponent compare as the FP16 mantissa and the upper FP32
mantissa. -/
theorem magnitude_le_iff_mant_le {e f m n : Nat} (hf : 1 ≤ f) (he : e = f + 112) :
    magnitude 15 10 f n ≤ magnitude 127 23 e m ↔ n ≤ m / 8192 := by
  have hexp : (e : ℤ) - ((127 : Nat) : ℤ) = (f : ℤ) - ((15 : Nat) : ℤ) := by omega
  have hmant : (n : ℚ) / 2 ^ 10 ≤ (m : ℚ) / 2 ^ 23 ↔ n * 8192 ≤ m := by
    rw [div_le_div_iff₀ (by positivity) (by positivity), ← Nat.cast_le (α := ℚ)]
    push_cast
    constructor <;> intro h <;> linarith
  rw [magnitude, magnitude, if_neg (by omega), if_neg (by omega), hexp, mul_le_mul_iff_right₀ (by positivity),
    add_le_add_iff_left, hmant, Nat.le_div_iff_mul_le (by decide)]

theorem magnitude_mono_mant {bias p e m n : Nat} (h : m ≤ n) : magnitude bias p e m ≤ magnitude bias p e n := by
  unfold magnitude
  split <;> gcongr

/-- Truncation gives the largest FP16 magnitude not above an FP32 magnitude of the normal class: a larger exponent
would exceed the operand, a smaller one stays below the result, and the same one compares by the mantissa. -/
theorem magnitude_le_truncated {e f m n : Nat} (he : 113 ≤ e) (hm : m < 2 ^ 23) (hn : n < 2 ^ 10)
    (h : magnitude 15 10 f n ≤ magnitude 127 23 e m) :
    magnitude 15 10 f n ≤ magnitude 15 10 (e - 112) (m / 8192) := by
  have hexp : ((e + 1 : Nat) : ℤ) - ((127 : Nat) : ℤ) = ((e - 112 + 1 : Nat) : ℤ) - ((15 : Nat) : ℤ) := by omega
  have hnot_above : f < e - 112 + 1 :=
    (magnitude_lt_zpow_iff hn (by omega)).mp (hexp ▸ h.trans_lt (magnitude_lt_zpow_succ hm))
  obtain hbelow | rfl : f < e - 112 ∨ f = e - 112 := by omega
  case inl => exact ((magnitude_lt_zpow_iff hn (by omega)).mpr hbelow).le.trans (zpow_le_magnitude (by omega))
  case inr => exact magnitude_mono_mant ((magnitude_le_iff_mant_le (by omega) (by omega)).mp h)

/-! ### The classes of the results -/

theorem fp16Class_encodeHalf (x : Word32) :
    fp16Class (encodeHalf x) = patternClass 31 (encExpOut x) (encMantOut x) := by
  rw [fp16Class, fp16Exp_encodeHalf, fp16Mant_encodeHalf]

theorem fp16Class_of_underflow {x : Word32} (h : (fp32Exp x).toNat ≤ 112) : fp16Class (encodeHalf x) = .zero := by
  obtain ⟨he, hm⟩ := encFields_of_underflow h
  rw [fp16Class_encodeHalf, he, hm]
  rfl

theorem fp16Class_of_overflow {x : Word32} (h : 143 ≤ (fp32Exp x).toNat) :
    fp16Class (encodeHalf x) = .infinity := by
  obtain ⟨he, hm⟩ := encFields_of_overflow h
  rw [fp16Class_encodeHalf, he, hm]
  rfl

theorem fp16Class_of_normal {x : Word32} (h : 113 ≤ (fp32Exp x).toNat ∧ (fp32Exp x).toNat ≤ 142) :
    fp16Class (encodeHalf x) = .normal := by
  obtain ⟨he, -⟩ := encFields_of_normal h
  rw [fp16Class_encodeHalf, patternClass, if_neg (by omega), if_neg (by omega)]

theorem exp_of_patternClass_special {emax e m : Nat}
    (h : patternClass emax e m = .infinity ∨ patternClass emax e m = .nan) : e = emax := by
  by_contra hne
  rw [patternClass, if_neg hne] at h
  split at h
  · split at h <;> simp at h
  · simp at h

/-- The value of the result in the normal class. -/
theorem fp16Value_of_normal {x : Word32} (h : 113 ≤ (fp32Exp x).toNat ∧ (fp32Exp x).toNat ≤ 142) :
    ∃ w, fp16Value (encodeHalf x) = some w ∧
      |w| = magnitude 15 10 ((fp32Exp x).toNat - 112) ((fp32Mant x).toNat / 8192) := by
  obtain ⟨he, hm⟩ := encFields_of_normal h
  have hne : (fp16Exp (encodeHalf x)).toNat ≠ 31 := by
    rw [fp16Exp_encodeHalf]
    omega
  have hupper : (fp32Upper x).toNat = (fp32Mant x).toNat / 8192 := by
    rw [fp32Upper_toNat, fp32Mant_toNat]
    omega
  obtain ⟨w, hw⟩ : ∃ w, fp16Value (encodeHalf x) = some w := patternValue_of_exp_ne hne
  refine ⟨w, hw, ?_⟩
  rw [abs_of_fp16Value hw, fp16Exp_encodeHalf, fp16Mant_encodeHalf, he, hm, hupper]

/-! ### The obligations -/

/-- Settles O14: the two thresholds are those of the classes, and truncation of the mantissa rounds the magnitude
down. -/
theorem encodeInTermsOfValues : Obligations.EncodeInTermsOfValues := by
  refine ⟨fun x v hv hlt => ?small, fun x v hv hle hlt => ?middle, fun x v hv hle => ?large, fun x h => ?special⟩
  case small => exact ⟨fp16Class_of_underflow ((fp32_abs_lt_iff_underflow hv).mp hlt), fp16Sign_encodeHalf x⟩
  case middle =>
    have hnot_under := mt (fp32_abs_lt_iff_underflow hv).mpr (not_lt.mpr hle)
    have hnot_over := mt (fp32_le_abs_iff_overflow hv).mpr (not_le.mpr hlt)
    have hexp : 113 ≤ (fp32Exp x).toNat ∧ (fp32Exp x).toNat ≤ 142 := by omega
    obtain ⟨w, hw, habs⟩ := fp16Value_of_normal hexp
    refine ⟨fp16Class_of_normal hexp, fp16Sign_encodeHalf x, w, hw, ?below, fun h u hu huv => ?largest⟩
    case below =>
      rw [habs, abs_of_fp32Value hv]
      exact (magnitude_le_iff_mant_le (by omega) (by omega)).mpr le_rfl
    case largest =>
      rw [abs_of_fp16Value hu, abs_of_fp32Value hv] at huv
      rw [abs_of_fp16Value hu, habs]
      exact magnitude_le_truncated hexp.1 (fp32Mant x).isLt (fp16Mant h).isLt huv
  case large => exact ⟨fp16Class_of_overflow ((fp32_le_abs_iff_overflow hv).mp hle), fp16Sign_encodeHalf x⟩
  case special =>
    have hexp : (fp32Exp x).toNat = 255 := exp_of_patternClass_special h
    exact ⟨fp16Class_of_overflow (by omega), fp16Sign_encodeHalf x⟩

end Sys2Proof.Machine
end

section
/-! The DECODE family: the fields of the result, the three classes of operands by their exponent field, and the result
in each class (R60 to R68). -/

namespace Sys2Proof.Machine

/-! ### The fields of the result -/

theorem fp32Exp_decodeHalf (h : Word16) : (fp32Exp (decodeHalf h)).toNat = decExpOut h := by
  have he := decExpOut_le h
  rw [fp32Exp_toNat, decodeHalf_toNat]
  omega

@[simp] theorem fp32Upper_decodeHalf (h : Word16) : fp32Upper (decodeHalf h) = fp16Mant h := by
  apply BitVec.eq_of_toNat_eq
  rw [fp32Upper_toNat, decodeHalf_toNat, fp16Mant_toNat]
  omega

@[simp] theorem fp32Lower_decodeHalf (h : Word16) : fp32Lower (decodeHalf h) = 0#13 := by
  apply BitVec.eq_of_toNat_eq
  rw [fp32Lower_toNat, decodeHalf_toNat, BitVec.toNat_ofNat]
  omega

/-- The mantissa field of the result, in every class (R63). -/
theorem fp32Mant_decodeHalf (h : Word16) : fp32Mant (decodeHalf h) = fp16Mant h ++ 0#13 := by
  rw [(patternsAreTheirFields.1 _).2, fp32Upper_decodeHalf, fp32Lower_decodeHalf]

theorem fp32Mant_decodeHalf_toNat (h : Word16) :
    (fp32Mant (decodeHalf h)).toNat = (fp16Mant h).toNat * 2 ^ 13 := by
  rw [fp32Mant_toNat, decodeHalf_toNat, fp16Mant_toNat]
  omega

theorem fp32Mant_decodeHalf_ne_zero {h : Word16} (hm : (fp16Mant h).toNat ≠ 0) :
    (fp32Mant (decodeHalf h)).toNat ≠ 0 := by
  rw [fp32Mant_decodeHalf_toNat]
  exact Nat.mul_ne_zero hm (by decide)

/-- The quiet bit is copied like every bit of the mantissa (R65). -/
theorem decodeHalf_getLsbD_quiet (h : Word16) : (decodeHalf h).getLsbD 22 = h.getLsbD 9 := by
  have hupper : (fp32Upper (decodeHalf h)).getLsbD 9 = (decodeHalf h).getLsbD 22 := by simp [fp32Upper]
  have hmant : (fp16Mant h).getLsbD 9 = h.getLsbD 9 := by simp [fp16Mant]
  rw [← hupper, fp32Upper_decodeHalf, hmant]

/-- The DECODE result is the concatenation of its fields, given what the exponent field is. -/
theorem decodeHalf_eq_append {h : Word16} {e : BitVec 8} (he : decExpOut h = e.toNat) :
    decodeHalf h = fp16Sign h ++ e ++ fp16Mant h ++ 0#13 := by
  have hexp : fp32Exp (decodeHalf h) = e := BitVec.eq_of_toNat_eq (by rw [fp32Exp_decodeHalf, he])
  rw [(patternsAreTheirFields.1 (decodeHalf h)).1, fp32Sign_decodeHalf, hexp, fp32Mant_decodeHalf,
    BitVec.append_assoc (x₃ := 0#13)]
  rfl

/-- Over a zero mantissa the result is the sign term and the exponent term. -/
theorem decodeHalf_of_mant_zero {h : Word16} (hm : (fp16Mant h).toNat = 0) :
    decodeHalf h = decSignTerm h ||| BitVec.ofNat 32 (decExpOut h) <<< 23 := by
  have hterm : decMantTerm h = 0#32 :=
    BitVec.eq_of_toNat_eq (by rw [decMantTerm_toNat, ← fp16Mant_toNat, hm]; rfl)
  rw [decodeHalf, hterm, BitVec.or_zero]

/-! ### The classes by the exponent field (R64 to R66) -/

theorem decExpOut_of_zeroExponent {h : Word16} (he : (fp16Exp h).toNat = 0) : decExpOut h = 0 := by
  rw [decExpOut_eq, ← fp16Exp_toNat, if_pos he]

theorem decExpOut_of_allOnes {h : Word16} (he : (fp16Exp h).toNat = 31) : decExpOut h = 255 := by
  rw [decExpOut_eq, ← fp16Exp_toNat, if_neg (by omega), if_pos he]

theorem decExpOut_of_normal {h : Word16} (h0 : (fp16Exp h).toNat ≠ 0) (h31 : (fp16Exp h).toNat ≠ 31) :
    decExpOut h = (fp16Exp h).toNat + 112 := by
  rw [decExpOut_eq, ← fp16Exp_toNat, if_neg h0, if_neg h31]

/-! ### The obligations -/

/-- Settles O16: in the zero-exponent class the exponent field is 0 under the unscaled mantissa. -/
theorem decodeZeroExponentPassesMantissaUnscaled : Obligations.DecodeZeroExponentPassesMantissaUnscaled := by
  refine ⟨fun h s he => ?result, fun h he hm => ?signedZero, fun h he hm => ?fields⟩
  case result =>
    have hexec := exec_eq (.decode h) s
    exact ⟨_, hexec, (f32O_of_exec_decode hexec).trans (decodeHalf_eq_append (decExpOut_of_zeroExponent he))⟩
  case signedZero =>
    rw [decodeHalf_of_mant_zero hm, decExpOut_of_zeroExponent he, decSignTerm_eq_ite]
    cases h.getLsbD 15 <;> rfl
  case fields =>
    exact ⟨(fp32Exp_decodeHalf h).trans (decExpOut_of_zeroExponent he), fp32Mant_decodeHalf_toNat h,
      fp32Mant_decodeHalf_ne_zero hm⟩

/-- Settles O17: in the all-ones class the exponent field is 255 over the payload, whose bits are copied in order. -/
theorem decodeAllOnesGivesInfinityOrNaN : Obligations.DecodeAllOnesGivesInfinityOrNaN := by
  refine ⟨fun h s he => ?result, fun h he hm => ?infinity, fun h he hm => ?payload⟩
  case result =>
    have hexec := exec_eq (.decode h) s
    exact ⟨_, hexec, (f32O_of_exec_decode hexec).trans (decodeHalf_eq_append (decExpOut_of_allOnes he))⟩
  case infinity =>
    rw [decodeHalf_of_mant_zero hm, decExpOut_of_allOnes he, decSignTerm_eq_ite]
    cases h.getLsbD 15 <;> rfl
  case payload =>
    exact ⟨(fp32Exp_decodeHalf h).trans (decExpOut_of_allOnes he), fp32Mant_decodeHalf_toNat h,
      fp32Mant_decodeHalf_ne_zero hm, decodeHalf_getLsbD_quiet h⟩

/-- Settles O18: in the normal class the exponent field is the operand's plus 112. -/
theorem decodeNormalRebiasesExponent : Obligations.DecodeNormalRebiasesExponent := by
  intro h s h1 h30
  have hexec := exec_eq (.decode h) s
  refine ⟨_, hexec, ?_⟩
  rw [f32O_of_exec_decode hexec]
  have hexp : (fp32Exp (decodeHalf h)).toNat = (fp16Exp h).toNat + 112 :=
    (fp32Exp_decodeHalf h).trans (decExpOut_of_normal (by omega) (by omega))
  exact ⟨fp32Sign_decodeHalf h, hexp, by omega, by omega, fp32Mant_decodeHalf h⟩

/-- Settles O19: the three branches of the concatenation form are the three classes, and give the same exponent
field. -/
theorem decodeAgreesWithConcatenationForm : Obligations.DecodeAgreesWithConcatenationForm := by
  intro h
  refine decodeHalf_eq_append ?_
  have hzero : fp16Exp h = 0b00000#5 ↔ (fp16Exp h).toNat = 0 := BitVec.toNat_inj.symm
  have hones : fp16Exp h = 0b11111#5 ↔ (fp16Exp h).toNat = 31 := BitVec.toNat_inj.symm
  simp only [hzero, hones]
  split
  case isTrue he => exact decExpOut_of_zeroExponent he
  case isFalse h0 =>
    split
    case isTrue he => exact decExpOut_of_allOnes he
    case isFalse h31 =>
      have hlt := (fp16Exp h).isLt
      rw [decExpOut_of_normal h0 h31, BitVec.toNat_add, BitVec.toNat_setWidth, BitVec.toNat_ofNat]
      omega

end Sys2Proof.Machine
end

section
/-! The DECODE family: DECODE in terms of the values of R44 (R69). The class, the sign and the mantissa are kept, so
what a result denotes is the operand's class read with the constants of FP32. -/

namespace Sys2Proof.Machine

/-! ### The class of the result -/

theorem decExpOut_eq_zero_iff {h : Word16} : decExpOut h = 0 ↔ (fp16Exp h).toNat = 0 := by
  rw [decExpOut_eq, ← fp16Exp_toNat]
  split <;> [skip; split] <;> omega

theorem decExpOut_eq_allOnes_iff {h : Word16} : decExpOut h = 255 ↔ (fp16Exp h).toNat = 31 := by
  have hlt := (fp16Exp h).isLt
  rw [decExpOut_eq, ← fp16Exp_toNat]
  split <;> [skip; split] <;> omega

/-- The two class tests, for exponent field zero and all ones, and the test of the mantissa for zero answer the same of
the operand and of the result (R69). -/
@[simp] theorem fp32Class_decodeHalf (h : Word16) : fp32Class (decodeHalf h) = fp16Class h := by
  have hmant : (fp16Mant h).toNat * 2 ^ 13 = 0 ↔ (fp16Mant h).toNat = 0 := by omega
  rw [fp32Class, fp32Exp_decodeHalf, fp32Mant_decodeHalf_toNat]
  simp only [fp16Class, patternClass, decExpOut_eq_zero_iff, decExpOut_eq_allOnes_iff, hmant]

theorem mant_ne_zero_of_patternClass_subnormal {emax e m : Nat} (h : patternClass emax e m = .subnormal) : m ≠ 0 := by
  rintro rfl
  unfold patternClass at h
  split at h <;> [skip; split at h] <;> cases h

theorem exp_ne_of_patternClass_normal {emax e m : Nat} (h : patternClass emax e m = .normal) :
    e ≠ 0 ∧ e ≠ emax := by
  unfold patternClass at h
  split at h
  · split at h <;> cases h
  · next h0 =>
    split at h
    · split at h <;> cases h
    · next hmax => exact ⟨h0, hmax⟩

/-! ### The value of the result -/

/-- The value of the result, by the operand's class and the fields of the result. -/
theorem fp32Value_decodeHalf (h : Word16) :
    fp32Value (decodeHalf h) =
      patternValue (fp16Class h) 127 23 (fp16Sign h).toNat (decExpOut h) ((fp16Mant h).toNat * 2 ^ 13) := by
  rw [fp32Value, fp32Class_decodeHalf, fp32Sign_decodeHalf, fp32Exp_decodeHalf, fp32Mant_decodeHalf_toNat]

/-- Thirteen zeros below a mantissa leave the fraction it denotes. -/
theorem fraction_shifted (m : Nat) : ((m * 2 ^ 13 : Nat) : ℚ) / 2 ^ 23 = (m : ℚ) / 2 ^ 10 := by
  push_cast
  ring

/-- A normal pattern denotes the same in both formats: the exponent is rebiased by the difference of the biases. -/
theorem patternValue_normal_rebias (s e m : Nat) :
    patternValue .normal 127 23 s (e + 112) (m * 2 ^ 13) = patternValue .normal 15 10 s e m := by
  have hexp : ((e + 112 : Nat) : ℤ) - ((127 : Nat) : ℤ) = (e : ℤ) - ((15 : Nat) : ℤ) := by omega
  rw [patternValue, patternValue, hexp, fraction_shifted]

/-- A subnormal whose mantissa denotes `n` of 1024 parts is worth `n` units of 2^k, where 2^(k + 10) is the power of two
before its fraction. -/
theorem patternValue_subnormal {bias p s e m n : Nat} {k : ℤ} (hfrac : (m : ℚ) / 2 ^ p = (n : ℚ) / 2 ^ 10)
    (hk : (1 : ℤ) - (bias : ℤ) = k + 10) :
    patternValue .subnormal bias p s e m = some ((-1) ^ s * (n * (2 : ℚ) ^ k)) := by
  have hunit : (2 : ℚ) ^ (k + 10) = 2 ^ k * 2 ^ 10 := zpow_add₀ two_ne_zero k 10
  rw [patternValue, hfrac, hk, hunit]
  congr 1
  ring

theorem fp16Value_of_subnormal {h : Word16} (hc : fp16Class h = .subnormal) :
    fp16Value h = some ((-1) ^ (fp16Sign h).toNat * ((fp16Mant h).toNat * (2 : ℚ) ^ (-24 : ℤ))) := by
  rw [fp16Value, hc]
  exact patternValue_subnormal rfl rfl

theorem fp32Value_decodeHalf_of_subnormal {h : Word16} (hc : fp16Class h = .subnormal) :
    fp32Value (decodeHalf h) =
      some ((-1) ^ (fp16Sign h).toNat * ((fp16Mant h).toNat * (2 : ℚ) ^ (-136 : ℤ))) := by
  rw [fp32Value_decodeHalf, hc]
  exact patternValue_subnormal (fraction_shifted _) rfl

/-- A subnormal is not zero, so its value changes with the unit. -/
theorem fp32Value_decodeHalf_ne_of_subnormal {h : Word16} (hc : fp16Class h = .subnormal) :
    fp32Value (decodeHalf h) ≠ fp16Value h := by
  have hm : ((fp16Mant h).toNat : ℚ) ≠ 0 := Nat.cast_ne_zero.mpr (mant_ne_zero_of_patternClass_subnormal hc)
  have hsign : (-1 : ℚ) ^ (fp16Sign h).toNat ≠ 0 := pow_ne_zero _ (by norm_num)
  have hunit : (2 : ℚ) ^ (-136 : ℤ) ≠ (2 : ℚ) ^ (-24 : ℤ) := by norm_num
  rw [fp32Value_decodeHalf_of_subnormal hc, fp16Value_of_subnormal hc]
  exact fun heq => hunit (mul_left_cancel₀ hm (mul_left_cancel₀ hsign (Option.some.inj heq)))

/-- DECODE is exact in value in every class but one. -/
theorem fp32Value_decodeHalf_eq_iff (h : Word16) :
    fp32Value (decodeHalf h) = fp16Value h ↔ fp16Class h ≠ .subnormal := by
  refine ⟨fun heq hc => fp32Value_decodeHalf_ne_of_subnormal hc heq, fun hne => ?_⟩
  rw [fp32Value_decodeHalf, fp16Value]
  cases hc : fp16Class h
  case zero => rfl
  case subnormal => exact absurd hc hne
  case normal =>
    obtain ⟨h0, h31⟩ := exp_ne_of_patternClass_normal hc
    rw [decExpOut_of_normal h0 h31]
    exact patternValue_normal_rebias _ _ _
  case infinity => rfl
  case nan => rfl

/-! ### The obligation -/

/-- Settles O20: the fields that the class tests read are kept, and only the subnormals do not have their exponent
rebiased. -/
theorem decodeInTermsOfValues : Obligations.DecodeInTermsOfValues :=
  ⟨fun h => ⟨fp32Class_decodeHalf h, fp32Sign_decodeHalf h⟩,
    fun h => ⟨fp32Upper_decodeHalf h, fp32Lower_decodeHalf h⟩, fp32Value_decodeHalf_eq_iff,
    fun _ hc => ⟨fp16Value_of_subnormal hc, fp32Value_decodeHalf_of_subnormal hc⟩⟩

end Sys2Proof.Machine
end

section
/-! The numerics family: patterns compared field by field (R33, R34), the fields of the words that the laws of R70 to
R77 mask with, and the pattern classes by their fields (R42, R43). -/

namespace Sys2Proof.Machine

/-! ### A pattern is determined by its fields -/

theorem fp32_eq_iff {x y : Word32} :
    x = y ↔ fp32Sign x = fp32Sign y ∧ fp32Exp x = fp32Exp y ∧ fp32Upper x = fp32Upper y ∧
      fp32Lower x = fp32Lower y := by
  refine ⟨fun h => by simp [h], fun ⟨hs, he, hu, hl⟩ => ?_⟩
  obtain ⟨hx, hmx⟩ := patternsAreTheirFields.1 x
  obtain ⟨hy, hmy⟩ := patternsAreTheirFields.1 y
  rw [hx, hy, hmx, hmy, hs, he, hu, hl]

theorem fp16_eq_iff {g h : Word16} :
    g = h ↔ fp16Sign g = fp16Sign h ∧ fp16Exp g = fp16Exp h ∧ fp16Mant g = fp16Mant h := by
  refine ⟨fun h => by simp [h], fun ⟨hs, he, hm⟩ => ?_⟩
  rw [patternsAreTheirFields.2 g, patternsAreTheirFields.2 h, hs, he, hm]

/-- Each field of a concatenation is the part it was made of. -/
theorem fp16_fields_append (s : BitVec 1) (e : BitVec 5) (m : BitVec 10) :
    fp16Sign (s ++ e ++ m) = s ∧ fp16Exp (s ++ e ++ m) = e ∧ fp16Mant (s ++ e ++ m) = m := by
  refine ⟨?sign, ?exponent, BitVec.extractLsb'_append_eq_right⟩
  case sign =>
    rw [fp16Sign, BitVec.extractLsb'_append_eq_of_le (by decide)]
    exact BitVec.extractLsb'_append_eq_left
  case exponent =>
    rw [fp16Exp, BitVec.extractLsb'_append_eq_of_le (by decide)]
    exact BitVec.extractLsb'_append_eq_right

/-! ### The fields of masked words -/

theorem fp32_fields_and (x y : Word32) :
    fp32Sign (x &&& y) = fp32Sign x &&& fp32Sign y ∧ fp32Exp (x &&& y) = fp32Exp x &&& fp32Exp y ∧
      fp32Upper (x &&& y) = fp32Upper x &&& fp32Upper y ∧ fp32Lower (x &&& y) = fp32Lower x &&& fp32Lower y :=
  ⟨BitVec.extractLsb'_and, BitVec.extractLsb'_and, BitVec.extractLsb'_and, BitVec.extractLsb'_and⟩

theorem fp32_fields_or (x y : Word32) :
    fp32Sign (x ||| y) = fp32Sign x ||| fp32Sign y ∧ fp32Exp (x ||| y) = fp32Exp x ||| fp32Exp y ∧
      fp32Upper (x ||| y) = fp32Upper x ||| fp32Upper y ∧ fp32Lower (x ||| y) = fp32Lower x ||| fp32Lower y :=
  ⟨BitVec.extractLsb'_or, BitVec.extractLsb'_or, BitVec.extractLsb'_or, BitVec.extractLsb'_or⟩

theorem fp16_fields_and (g h : Word16) :
    fp16Sign (g &&& h) = fp16Sign g &&& fp16Sign h ∧ fp16Exp (g &&& h) = fp16Exp g &&& fp16Exp h ∧
      fp16Mant (g &&& h) = fp16Mant g &&& fp16Mant h :=
  ⟨BitVec.extractLsb'_and, BitVec.extractLsb'_and, BitVec.extractLsb'_and⟩

theorem fp16_fields_or (g h : Word16) :
    fp16Sign (g ||| h) = fp16Sign g ||| fp16Sign h ∧ fp16Exp (g ||| h) = fp16Exp g ||| fp16Exp h ∧
      fp16Mant (g ||| h) = fp16Mant g ||| fp16Mant h :=
  ⟨BitVec.extractLsb'_or, BitVec.extractLsb'_or, BitVec.extractLsb'_or⟩

/-! ### The masks of R70, R72 to R74 and R77 -/

theorem fp32_fields_signMask :
    fp32Sign 0x80000000#32 = BitVec.allOnes 1 ∧ fp32Exp 0x80000000#32 = 0#8 ∧ fp32Upper 0x80000000#32 = 0#10 ∧
      fp32Lower 0x80000000#32 = 0#13 := by decide

theorem fp32_fields_signFlip (x : Word32) :
    fp32Sign (x ^^^ 0x80000000#32) = ~~~fp32Sign x ∧ fp32Exp (x ^^^ 0x80000000#32) = fp32Exp x ∧
      fp32Upper (x ^^^ 0x80000000#32) = fp32Upper x ∧ fp32Lower (x ^^^ 0x80000000#32) = fp32Lower x := by
  obtain ⟨hs, he, hu, hl⟩ := fp32_fields_signMask
  simp only [fp32Sign, fp32Exp, fp32Upper, fp32Lower, BitVec.extractLsb'_xor] at *
  simp only [hs, he, hu, hl, BitVec.xor_allOnes, BitVec.xor_zero, and_self]

theorem fp32_fields_truncationMask :
    fp32Sign 0xFFFFE000#32 = BitVec.allOnes 1 ∧ fp32Exp 0xFFFFE000#32 = BitVec.allOnes 8 ∧
      fp32Upper 0xFFFFE000#32 = BitVec.allOnes 10 ∧ fp32Lower 0xFFFFE000#32 = 0#13 := by decide

theorem fp32_fields_infinity :
    fp32Sign 0x7F800000#32 = 0#1 ∧ fp32Exp 0x7F800000#32 = 255#8 ∧ fp32Upper 0x7F800000#32 = 0#10 ∧
      fp32Lower 0x7F800000#32 = 0#13 := by decide

theorem fp16_fields_signMask :
    fp16Sign 0x8000#16 = BitVec.allOnes 1 ∧ fp16Exp 0x8000#16 = 0#5 ∧ fp16Mant 0x8000#16 = 0#10 := by decide

theorem fp16_fields_signFlip (h : Word16) :
    fp16Sign (h ^^^ 0x8000#16) = ~~~fp16Sign h ∧ fp16Exp (h ^^^ 0x8000#16) = fp16Exp h ∧
      fp16Mant (h ^^^ 0x8000#16) = fp16Mant h := by
  obtain ⟨hs, he, hm⟩ := fp16_fields_signMask
  simp only [fp16Sign, fp16Exp, fp16Mant, BitVec.extractLsb'_xor] at *
  simp only [hs, he, hm, BitVec.xor_allOnes, BitVec.xor_zero, and_self]

theorem fp16_fields_infinity :
    fp16Sign 0x7C00#16 = 0#1 ∧ fp16Exp 0x7C00#16 = 31#5 ∧ fp16Mant 0x7C00#16 = 0#10 := by decide

theorem fp16_fields_magnitudeMask :
    fp16Sign 0x7FFF#16 = 0#1 ∧ fp16Exp 0x7FFF#16 = BitVec.allOnes 5 ∧ fp16Mant 0x7FFF#16 = BitVec.allOnes 10 := by
  decide

/-- Below the sign bit an FP16 pattern is its exponent and mantissa fields. -/
theorem fp16_magnitude_eq_append_iff {h : Word16} {e : BitVec 5} {m : BitVec 10} :
    h &&& 0x7FFF#16 = 0#1 ++ e ++ m ↔ (fp16Exp h).toNat = e.toNat ∧ (fp16Mant h).toNat = m.toNat := by
  simp only [fp16_eq_iff, fp16_fields_and, fp16_fields_magnitudeMask, fp16_fields_append, BitVec.and_allOnes,
    BitVec.and_zero, true_and, BitVec.toNat_inj]

/-! ### The pattern classes by their fields -/

theorem patternClass_eq_zero_iff {emax e m : Nat} : patternClass emax e m = .zero ↔ e = 0 ∧ m = 0 := by
  unfold patternClass
  split_ifs <;> simp_all

theorem patternClass_eq_subnormal_iff {emax e m : Nat} : patternClass emax e m = .subnormal ↔ e = 0 ∧ m ≠ 0 := by
  unfold patternClass
  split_ifs <;> simp_all

theorem patternClass_eq_infinity_iff {emax e m : Nat} (h : emax ≠ 0) :
    patternClass emax e m = .infinity ↔ e = emax ∧ m = 0 := by
  rcases eq_or_ne e 0 with rfl | he
  · rw [patternClass, if_pos rfl]
    split <;> simp [h.symm]
  · rw [patternClass, if_neg he]
    split_ifs <;> simp [*]

theorem patternClass_eq_nan_iff {emax e m : Nat} (h : emax ≠ 0) :
    patternClass emax e m = .nan ↔ e = emax ∧ m ≠ 0 := by
  rcases eq_or_ne e 0 with rfl | he
  · rw [patternClass, if_pos rfl]
    split <;> simp [h.symm]
  · rw [patternClass, if_neg he]
    split_ifs <;> simp [*]

theorem fp32Mant_eq_zero_iff {x : Word32} :
    (fp32Mant x).toNat = 0 ↔ fp32Upper x = 0#10 ∧ fp32Lower x = 0#13 := by
  rw [← BitVec.toNat_inj, ← BitVec.toNat_inj, fp32Upper_toNat, fp32Lower_toNat, fp32Mant_toNat, BitVec.toNat_ofNat,
    BitVec.toNat_ofNat]
  omega

theorem fp32Class_eq_zero_iff {x : Word32} :
    fp32Class x = .zero ↔ (fp32Exp x).toNat = 0 ∧ fp32Upper x = 0#10 ∧ fp32Lower x = 0#13 :=
  patternClass_eq_zero_iff.trans (and_congr_right' fp32Mant_eq_zero_iff)

theorem fp32Class_eq_infinity_iff {x : Word32} :
    fp32Class x = .infinity ↔ (fp32Exp x).toNat = 255 ∧ fp32Upper x = 0#10 ∧ fp32Lower x = 0#13 :=
  (patternClass_eq_infinity_iff (by decide)).trans (and_congr_right' fp32Mant_eq_zero_iff)

theorem fp16Class_eq_subnormal_iff {h : Word16} :
    fp16Class h = .subnormal ↔ (fp16Exp h).toNat = 0 ∧ (fp16Mant h).toNat ≠ 0 :=
  patternClass_eq_subnormal_iff

theorem fp16Class_eq_nan_iff {h : Word16} :
    fp16Class h = .nan ↔ (fp16Exp h).toNat = 31 ∧ (fp16Mant h).toNat ≠ 0 :=
  patternClass_eq_nan_iff (by decide)

end Sys2Proof.Machine
end

section
/-! The numerics family: DECODE after ENCODE and what follows for ENCODE results (R70, R72 to R76). -/

namespace Sys2Proof.Machine

/-! ### The classes of ENCODE operands, and its special results -/

theorem fp32Exp_cases (x : Word32) :
    (fp32Exp x).toNat ≤ 112 ∨ 143 ≤ (fp32Exp x).toNat ∨
      (113 ≤ (fp32Exp x).toNat ∧ (fp32Exp x).toNat ≤ 142) := by omega

theorem encExpOut_eq_zero_iff {x : Word32} : encExpOut x = 0 ↔ (fp32Exp x).toNat ≤ 112 := by
  rw [encExpOut_eq, ← fp32Exp_toNat]
  split <;> [skip; split] <;> omega

theorem encExpOut_eq_allOnes_iff {x : Word32} : encExpOut x = 31 ↔ 143 ≤ (fp32Exp x).toNat := by
  rw [encExpOut_eq, ← fp32Exp_toNat]
  split <;> [skip; split] <;> omega

/-! ### What the fields of a result read -/

/-- The exponent field of the ENCODE result reads the operand's exponent field alone. -/
theorem fp16Exp_encodeHalf_congr {x y : Word32} (he : fp32Exp x = fp32Exp y) :
    fp16Exp (encodeHalf x) = fp16Exp (encodeHalf y) := by
  apply BitVec.eq_of_toNat_eq
  simp only [fp16Exp_encodeHalf, encExpOut_eq, ← fp32Exp_toNat, he]

/-- The mantissa field of the ENCODE result reads the operand's exponent field and upper mantissa alone. -/
theorem fp16Mant_encodeHalf_congr {x y : Word32} (he : fp32Exp x = fp32Exp y) (hu : fp32Upper x = fp32Upper y) :
    fp16Mant (encodeHalf x) = fp16Mant (encodeHalf y) := by
  apply BitVec.eq_of_toNat_eq
  simp only [fp16Mant_encodeHalf, encMantOut_eq, ← fp32Exp_toNat, ← fp32Upper_toNat, he, hu]

/-- The exponent field of the DECODE result reads the operand's exponent field alone. -/
theorem fp32Exp_decodeHalf_congr {g h : Word16} (he : fp16Exp g = fp16Exp h) :
    fp32Exp (decodeHalf g) = fp32Exp (decodeHalf h) := by
  apply BitVec.eq_of_toNat_eq
  simp only [fp32Exp_decodeHalf, decExpOut_eq, ← fp16Exp_toNat, he]

/-! ### The fields of a round trip -/

theorem roundTrip_of_underflow {x : Word32} (h : (fp32Exp x).toNat ≤ 112) :
    fp32Exp (decodeHalf (encodeHalf x)) = 0#8 ∧ fp16Mant (encodeHalf x) = 0#10 := by
  obtain ⟨he, hm⟩ := encFields_of_underflow h
  rw [← fp16Exp_encodeHalf] at he
  rw [← fp16Mant_encodeHalf] at hm
  exact ⟨BitVec.eq_of_toNat_eq (by rw [fp32Exp_decodeHalf, decExpOut_of_zeroExponent he]; rfl),
    BitVec.eq_of_toNat_eq hm⟩

theorem roundTrip_of_overflow {x : Word32} (h : 143 ≤ (fp32Exp x).toNat) :
    fp32Exp (decodeHalf (encodeHalf x)) = 255#8 ∧ fp16Mant (encodeHalf x) = 0#10 := by
  obtain ⟨he, hm⟩ := encFields_of_overflow h
  rw [← fp16Exp_encodeHalf] at he
  rw [← fp16Mant_encodeHalf] at hm
  exact ⟨BitVec.eq_of_toNat_eq (by rw [fp32Exp_decodeHalf, decExpOut_of_allOnes he]; rfl),
    BitVec.eq_of_toNat_eq hm⟩

/-- In the normal class both biases of the exponent cancel. -/
theorem roundTrip_of_normal {x : Word32} (h : 113 ≤ (fp32Exp x).toNat ∧ (fp32Exp x).toNat ≤ 142) :
    fp32Exp (decodeHalf (encodeHalf x)) = fp32Exp x ∧ fp16Mant (encodeHalf x) = fp32Upper x := by
  obtain ⟨he, hm⟩ := encFields_of_normal h
  rw [← fp16Exp_encodeHalf] at he
  rw [← fp16Mant_encodeHalf] at hm
  have hexp := decExpOut_of_normal (h := encodeHalf x) (by omega) (by omega)
  exact ⟨BitVec.eq_of_toNat_eq (by rw [fp32Exp_decodeHalf, hexp]; omega), BitVec.eq_of_toNat_eq hm⟩

/-- A round trip always keeps the sign and always clears the thirteen low bits. -/
theorem roundTrip_eq_iff {x y : Word32} :
    decodeHalf (encodeHalf x) = y ↔ fp32Sign x = fp32Sign y ∧
      fp32Exp (decodeHalf (encodeHalf x)) = fp32Exp y ∧ fp16Mant (encodeHalf x) = fp32Upper y ∧
      0#13 = fp32Lower y := by
  rw [fp32_eq_iff, fp32Sign_decodeHalf, fp16Sign_encodeHalf, fp32Upper_decodeHalf, fp32Lower_decodeHalf]

theorem roundTrip_eq_self_iff_of_underflow {x : Word32} (h : (fp32Exp x).toNat ≤ 112) :
    decodeHalf (encodeHalf x) = x ↔ fp32Class x = .zero := by
  obtain ⟨he, hm⟩ := roundTrip_of_underflow h
  have hzero : 0#8 = fp32Exp x ↔ (fp32Exp x).toNat = 0 := eq_comm.trans BitVec.toNat_inj.symm
  rw [roundTrip_eq_iff, he, hm, hzero, fp32Class_eq_zero_iff, eq_comm (a := 0#10), eq_comm (a := 0#13)]
  exact and_iff_right rfl

theorem roundTrip_eq_self_iff_of_overflow {x : Word32} (h : 143 ≤ (fp32Exp x).toNat) :
    decodeHalf (encodeHalf x) = x ↔ fp32Class x = .infinity := by
  obtain ⟨he, hm⟩ := roundTrip_of_overflow h
  have hones : 255#8 = fp32Exp x ↔ (fp32Exp x).toNat = 255 := eq_comm.trans BitVec.toNat_inj.symm
  rw [roundTrip_eq_iff, he, hm, hones, fp32Class_eq_infinity_iff, eq_comm (a := 0#10), eq_comm (a := 0#13)]
  exact and_iff_right rfl

theorem roundTrip_eq_self_iff_of_normal {x : Word32} (h : 113 ≤ (fp32Exp x).toNat ∧ (fp32Exp x).toNat ≤ 142) :
    decodeHalf (encodeHalf x) = x ↔ fp32Lower x = 0#13 := by
  obtain ⟨he, hm⟩ := roundTrip_of_normal h
  rw [roundTrip_eq_iff, he, hm, eq_comm (a := 0#13)]
  simp only [true_and]

/-- The operands that a round trip leaves fixed (R70). -/
theorem roundTrip_eq_self_iff (x : Word32) :
    decodeHalf (encodeHalf x) = x ↔
      (113 ≤ (fp32Exp x).toNat ∧ (fp32Exp x).toNat ≤ 142 ∧ fp32Lower x = 0#13) ∨
        fp32Class x = .zero ∨ fp32Class x = .infinity := by
  have hzero : fp32Class x = .zero → (fp32Exp x).toNat = 0 := fun h => (fp32Class_eq_zero_iff.mp h).1
  have hinf : fp32Class x = .infinity → (fp32Exp x).toNat = 255 := fun h => (fp32Class_eq_infinity_iff.mp h).1
  obtain hu | ho | hn := fp32Exp_cases x
  case inl =>
    have hlow : ¬ 113 ≤ (fp32Exp x).toNat := by omega
    have hnot := mt hinf (by omega)
    simp only [roundTrip_eq_self_iff_of_underflow hu, hlow, hnot, false_and, false_or, or_false]
  case inr.inl =>
    have hhigh : ¬ (fp32Exp x).toNat ≤ 142 := by omega
    have hnot := mt hzero (by omega)
    simp only [roundTrip_eq_self_iff_of_overflow ho, hhigh, hnot, false_and, and_false, false_or]
  case inr.inr =>
    have hnot := mt hzero (by omega)
    have hnot' := mt hinf (by omega)
    simp only [roundTrip_eq_self_iff_of_normal hn, hn, hnot, hnot', true_and, or_false]

/-! ### The obligations -/

/-- Settles O23: in each class the fields of the round trip are those of the masked operand. -/
theorem decodeAfterEncodeByClass : Obligations.DecodeAfterEncodeByClass := by
  refine ⟨fun x h => ?underflow, fun x h h' => ?normal, fun x h => ?overflow, roundTrip_eq_self_iff⟩
  case underflow =>
    simp only [roundTrip_eq_iff, roundTrip_of_underflow h, fp32_fields_and, fp32_fields_signMask,
      BitVec.and_allOnes, BitVec.and_zero, and_self]
  case normal =>
    simp only [roundTrip_eq_iff, roundTrip_of_normal ⟨h, h'⟩, fp32_fields_and, fp32_fields_truncationMask,
      BitVec.and_allOnes, BitVec.and_zero, and_self]
  case overflow =>
    simp only [roundTrip_eq_iff, roundTrip_of_overflow h, fp32_fields_or, fp32_fields_and, fp32_fields_signMask,
      fp32_fields_infinity, BitVec.and_allOnes, BitVec.and_zero, BitVec.or_zero, BitVec.zero_or, and_self]

/-- Settles O25: the sign field is copied, and the other fields of a result do not read the sign. -/
theorem signSymmetry : Obligations.SignSymmetry := by
  constructor
  case left =>
    intro x
    obtain ⟨hs, he, hu, -⟩ := fp32_fields_signFlip x
    simp only [fp16_eq_iff, fp16_fields_signFlip, fp16Sign_encodeHalf, hs, fp16Exp_encodeHalf_congr he,
      fp16Mant_encodeHalf_congr he hu, and_self]
  case right =>
    intro h
    obtain ⟨hs, he, hm⟩ := fp16_fields_signFlip h
    simp only [fp32_eq_iff, fp32_fields_signFlip, fp32Sign_decodeHalf, hs, fp32Exp_decodeHalf_congr he,
      fp32Upper_decodeHalf, hm, fp32Lower_decodeHalf, and_self]

/-- Settles O26: exponent field 31 is the overflow class, whose mantissa field is 0. -/
theorem overflowClampExactly : Obligations.OverflowClampExactly := by
  refine ⟨fun x => ?magnitude, fun x h => ?result, fun x hlo hhi => ?disputed⟩
  case magnitude =>
    have hsplit : 0x7C00#16 = 0#1 ++ 31#5 ++ 0#10 := by decide
    rw [hsplit, fp16_magnitude_eq_append_iff, fp16Exp_encodeHalf, fp16Mant_encodeHalf]
    exact ⟨fun ⟨he, _⟩ => encExpOut_eq_allOnes_iff.mp he, encFields_of_overflow⟩
  case result =>
    rw [encodeHalf_of_overflow h, encSignTerm_eq_ite]
    cases x.getLsbD 31 <;> rfl
  case disputed =>
    have hexp : (fp32Exp x).toNat = 142 := by rw [fp32Exp_toNat]; omega
    have hupper : (fp32Upper x).toNat = 1023 := by rw [fp32Upper_toNat]; omega
    obtain ⟨he, hm⟩ := encFields_of_normal (x := x) (by omega)
    refine ⟨by rw [encRebiased, hexp]; rfl, BitVec.eq_of_toNat_eq ?_⟩
    rw [encodeHalf_toNat, he, hm, hexp, hupper, BitVec.toNat_ofNat]
    omega

/-- Settles O27: exponent field 0 is the underflow class, whose mantissa field is 0. -/
theorem underflowFlushExactly : Obligations.UnderflowFlushExactly := by
  refine ⟨fun x => ?magnitude, fun x h => ?result⟩
  case magnitude =>
    have hsplit : 0x0000#16 = 0#1 ++ 0#5 ++ 0#10 := by decide
    rw [hsplit, fp16_magnitude_eq_append_iff, fp16Exp_encodeHalf, fp16Mant_encodeHalf]
    exact ⟨fun ⟨he, _⟩ => encExpOut_eq_zero_iff.mp he, encFields_of_underflow⟩
  case result => rw [encodeHalf_of_underflow h, encSignTerm_eq_ite]

/-- Settles O28, by evaluation of the four patterns. -/
theorem decodeOfSpecialPatterns : Obligations.DecodeOfSpecialPatterns := by
  unfold Obligations.DecodeOfSpecialPatterns
  decide

/-- Settles O29, by evaluation of the two patterns. -/
theorem oneConvertsExactly : Obligations.OneConvertsExactly := by
  unfold Obligations.OneConvertsExactly
  decide

end Sys2Proof.Machine
end

section
/-! The numerics family: the truncation error of a round trip (R71). Within one exponent two magnitudes differ by their
mantissas, counted in units of the last place, and truncation drops the thirteen low bits of the mantissa. -/

namespace Sys2Proof.Machine

/-! ### Normal values and their magnitudes -/

theorem magnitude_pos {bias p e m : Nat} (he : e ≠ 0) : 0 < magnitude bias p e m :=
  lt_of_lt_of_le (by positivity) (zpow_le_magnitude he)

/-- The sign bit over a positive magnitude is the sign of the value. -/
theorem sign_of_neg_one_pow_mul (s : BitVec 1) {a : ℚ} (ha : 0 < a) :
    (0 < (-1) ^ s.toNat * a ↔ s = 0#1) ∧ ((-1) ^ s.toNat * a < 0 ↔ s = 1#1) := by
  rcases BitVec.eq_zero_or_eq_one s with rfl | rfl <;> simp [ha, ha.le]

/-- The value of a pattern whose exponent field is neither 0 nor all ones, by magnitude and sign. -/
theorem fp32Value_of_exp {x : Word32} (h0 : (fp32Exp x).toNat ≠ 0) (hmax : (fp32Exp x).toNat ≠ 255) :
    ∃ v, fp32Value x = some v ∧ |v| = magnitude 127 23 (fp32Exp x).toNat (fp32Mant x).toNat ∧
      (0 < v ↔ fp32Sign x = 0#1) ∧ (v < 0 ↔ fp32Sign x = 1#1) := by
  have hv : fp32Value x =
      some ((-1) ^ (fp32Sign x).toNat * magnitude 127 23 (fp32Exp x).toNat (fp32Mant x).toNat) := by
    rw [fp32Value, fp32Class, patternClass, if_neg h0, if_neg hmax, patternValue, magnitude, if_neg h0, mul_assoc]
  exact ⟨_, hv, abs_of_fp32Value hv, sign_of_neg_one_pow_mul _ (magnitude_pos h0)⟩

/-- Adding to the mantissa adds that many units of the last place. -/
theorem magnitude_add_sub {e n d : Nat} (he : e ≠ 0) :
    magnitude 127 23 e (n + d) - magnitude 127 23 e n = (d : ℚ) * (2 : ℚ) ^ ((e : ℤ) - 150) := by
  have hunit : (2 : ℚ) ^ ((e : ℤ) - ((127 : Nat) : ℤ)) = 2 ^ ((e : ℤ) - 150) * 2 ^ 23 := by
    rw [← zpow_natCast, ← zpow_add₀ two_ne_zero]
    congr 1
    omega
  rw [magnitude, magnitude, if_neg he, if_neg he, hunit]
  push_cast
  ring

theorem fp32Mant_eq_upper_add_lower (x : Word32) :
    (fp32Mant x).toNat = (fp32Upper x).toNat * 2 ^ 13 + (fp32Lower x).toNat := by
  rw [fp32Mant_toNat, fp32Upper_toNat, fp32Lower_toNat]
  omega

/-- What thirteen bits count in units of the last place stays below one unit of the tenth mantissa bit. -/
theorem lower_mul_unit_lt (l : BitVec 13) (e : Nat) :
    (l.toNat : ℚ) * (2 : ℚ) ^ ((e : ℤ) - 150) < (2 : ℚ) ^ ((e : ℤ) - 137) := by
  have hlt : (l.toNat : ℚ) < 2 ^ 13 := by exact_mod_cast l.isLt
  have hunit : (2 : ℚ) ^ ((e : ℤ) - 137) = 2 ^ 13 * 2 ^ ((e : ℤ) - 150) := by
    rw [← zpow_natCast, ← zpow_add₀ two_ne_zero]
    congr 1
    omega
  rw [hunit]
  exact mul_lt_mul_of_pos_right hlt (by positivity)

/-- One unit of the tenth mantissa bit is at most 2^-10 of the magnitude. -/
theorem zpow_le_mul_magnitude {e m : Nat} (he : e ≠ 0) :
    (2 : ℚ) ^ ((e : ℤ) - 137) ≤ (2 : ℚ) ^ (-10 : ℤ) * magnitude 127 23 e m := by
  have hsplit : (2 : ℚ) ^ ((e : ℤ) - 137) = 2 ^ (-10 : ℤ) * 2 ^ ((e : ℤ) - ((127 : Nat) : ℤ)) := by
    rw [← zpow_add₀ two_ne_zero]
    congr 1
    omega
  rw [hsplit]
  exact mul_le_mul_of_nonneg_left (zpow_le_magnitude he) (by positivity)

/-! ### The obligation -/

/-- Settles O24: the round trip keeps the sign and the exponent and clears the low bits of the mantissa. -/
theorem truncationErrorIsBounded : Obligations.TruncationErrorIsBounded := by
  intro x hlo hhi
  have h0 : (fp32Exp x).toNat ≠ 0 := by omega
  have hmax : (fp32Exp x).toNat ≠ 255 := by omega
  obtain ⟨hexp, hmant⟩ := roundTrip_of_normal ⟨hlo, hhi⟩
  obtain ⟨v, hv, habs_v, hpos_v, hneg_v⟩ := fp32Value_of_exp h0 hmax
  obtain ⟨w, hw, habs_w, hpos_w, hneg_w⟩ :=
    fp32Value_of_exp (x := decodeHalf (encodeHalf x)) (hexp ▸ h0) (hexp ▸ hmax)
  rw [hexp, fp32Mant_decodeHalf_toNat, hmant] at habs_w
  rw [fp32Sign_decodeHalf, fp16Sign_encodeHalf] at hpos_w hneg_w
  rw [fp32Mant_eq_upper_add_lower] at habs_v
  have herror : |v| - |w| = (fp32Lower x).toNat * (2 : ℚ) ^ (((fp32Exp x).toNat : ℤ) - 150) := by
    rw [habs_v, habs_w, magnitude_add_sub h0]
  have hbound := herror.trans_lt (lower_mul_unit_lt (fp32Lower x) (fp32Exp x).toNat)
  refine ⟨v, w, hv, hw, hpos_v.trans hpos_w.symm, hneg_v.trans hneg_w.symm, ?shrinks, herror, hbound, ?relative⟩
  case shrinks =>
    rw [habs_v, habs_w]
    exact magnitude_mono_mant (Nat.le_add_right _ _)
  case relative =>
    rw [div_lt_iff₀ (habs_v ▸ magnitude_pos h0)]
    exact hbound.trans_le (habs_v ▸ zpow_le_mul_magnitude h0)

end Sys2Proof.Machine
end

section
/-! The numerics family: ENCODE after DECODE, the patterns it leaves fixed and their number (R77), and the projection
laws (R78). -/

namespace Sys2Proof.Machine

/-! ### The fields of an inverse round trip -/

/-- The exponent field comes back in every class: 0 from 0, 31 from 255, and the biases cancel between. -/
theorem encExpOut_decodeHalf (h : Word16) : encExpOut (decodeHalf h) = (fp16Exp h).toNat := by
  have hlt := (fp16Exp h).isLt
  rw [encExpOut_eq, ← fp32Exp_toNat, fp32Exp_decodeHalf, decExpOut_eq, ← fp16Exp_toNat]
  split_ifs <;> omega

@[simp] theorem fp16Exp_encodeHalf_decodeHalf (h : Word16) : fp16Exp (encodeHalf (decodeHalf h)) = fp16Exp h :=
  BitVec.eq_of_toNat_eq (by rw [fp16Exp_encodeHalf, encExpOut_decodeHalf])

/-- Outside the normal class the mantissa field is lost. -/
theorem fp16Mant_encodeHalf_decodeHalf_of_special {h : Word16}
    (he : (fp16Exp h).toNat = 0 ∨ (fp16Exp h).toNat = 31) : fp16Mant (encodeHalf (decodeHalf h)) = 0#10 := by
  have hexp := fp32Exp_decodeHalf h
  obtain h0 | h31 := he
  · rw [decExpOut_of_zeroExponent h0] at hexp
    exact (roundTrip_of_underflow (by omega)).2
  · rw [decExpOut_of_allOnes h31] at hexp
    exact (roundTrip_of_overflow (by omega)).2

theorem fp16Mant_encodeHalf_decodeHalf_of_normal {h : Word16}
    (he : ¬ ((fp16Exp h).toNat = 0 ∨ (fp16Exp h).toNat = 31)) :
    fp16Mant (encodeHalf (decodeHalf h)) = fp16Mant h := by
  have hlt := (fp16Exp h).isLt
  have hexp := fp32Exp_decodeHalf h
  rw [decExpOut_of_normal (by omega) (by omega)] at hexp
  rw [(roundTrip_of_normal (by omega)).2, fp32Upper_decodeHalf]

theorem encodeHalf_decodeHalf_eq_iff {g h : Word16} :
    encodeHalf (decodeHalf h) = g ↔ fp16Sign h = fp16Sign g ∧ fp16Exp h = fp16Exp g ∧
      fp16Mant (encodeHalf (decodeHalf h)) = fp16Mant g := by
  rw [fp16_eq_iff, fp16Sign_encodeHalf, fp32Sign_decodeHalf, fp16Exp_encodeHalf_decodeHalf]

/-- The patterns that ENCODE after DECODE leaves fixed: those whose mantissa is not lost with the class (R77). -/
theorem encodeHalf_decodeHalf_eq_self_iff (h : Word16) :
    encodeHalf (decodeHalf h) = h ↔ fp16Class h ≠ .subnormal ∧ fp16Class h ≠ .nan := by
  have hmant : 0#10 = fp16Mant h ↔ (fp16Mant h).toNat = 0 := eq_comm.trans BitVec.toNat_inj.symm
  rw [encodeHalf_decodeHalf_eq_iff, ne_eq, ne_eq, fp16Class_eq_subnormal_iff, fp16Class_eq_nan_iff,
    and_iff_right rfl, and_iff_right rfl]
  by_cases he : (fp16Exp h).toNat = 0 ∨ (fp16Exp h).toNat = 31
  case pos =>
    rw [fp16Mant_encodeHalf_decodeHalf_of_special he, hmant]
    omega
  case neg => exact iff_of_true (fp16Mant_encodeHalf_decodeHalf_of_normal he) (by omega)

/-! ### The dual -/

/-- The fields of a DECODE result give back the operand's: the sign and the mantissa stand in it, and ENCODE reads the
exponent field off it. -/
theorem decodeHalf_injective : Function.Injective decodeHalf := by
  intro g h heq
  have hexp : fp16Exp g = fp16Exp h := by
    rw [← fp16Exp_encodeHalf_decodeHalf g, heq, fp16Exp_encodeHalf_decodeHalf]
  rw [fp16_eq_iff, ← fp32Sign_decodeHalf, ← fp32Upper_decodeHalf, heq]
  exact ⟨fp32Sign_decodeHalf h, hexp, fp32Upper_decodeHalf h⟩

/-- An ENCODE result is a zero, a normal or an infinity. -/
theorem fp16Class_encodeHalf_ne (x : Word32) :
    fp16Class (encodeHalf x) ≠ .subnormal ∧ fp16Class (encodeHalf x) ≠ .nan := by
  obtain hu | ho | hn := fp32Exp_cases x
  · simp [fp16Class_of_underflow hu]
  · simp [fp16Class_of_overflow ho]
  · simp [fp16Class_of_normal hn]

/-- R78's dual: DECODE is injective, so both round trips fix the same patterns. -/
theorem decodeHalf_encodeHalf_decodeHalf_eq_iff (h : Word16) :
    decodeHalf (encodeHalf (decodeHalf h)) = decodeHalf h ↔ encodeHalf (decodeHalf h) = h :=
  decodeHalf_injective.eq_iff

/-! ### The counts -/

/-- Two runs of 1023 consecutive patterns, one for each sign: those of one exponent field with a mantissa that is not
0. -/
theorem countP_exp_mant_ne_zero {p : Nat → Bool} {e : Nat} (he : e < 32)
    (hp : ∀ n < 65536, p n = true ↔ n / 1024 % 32 = e ∧ n % 1024 ≠ 0) :
    (List.range 65536).countP p = 2046 := by
  have hruns : {n ∈ Finset.range 65536 | p n = true} =
      Finset.Ioo (1024 * e) (1024 * e + 1024) ∪ Finset.Ioo (1024 * e + 32768) (1024 * e + 33792) := by
    ext n
    rw [Finset.mem_filter, Finset.mem_range, Finset.mem_union, Finset.mem_Ioo, Finset.mem_Ioo]
    constructor
    · rintro ⟨hn, h⟩
      rw [hp n hn] at h
      omega
    · intro h
      have hn : n < 65536 := by omega
      refine ⟨hn, (hp n hn).mpr ?_⟩
      omega
  have hdisjoint : Disjoint (Finset.Ioo (1024 * e) (1024 * e + 1024))
      (Finset.Ioo (1024 * e + 32768) (1024 * e + 33792)) := by
    rw [Finset.disjoint_left]
    intro n
    rw [Finset.mem_Ioo, Finset.mem_Ioo]
    omega
  calc (List.range 65536).countP p
      = {n ∈ Finset.range 65536 | p n = true}.card := by
        rw [← Nat.count_eq_card_filter_range, Nat.count]
        simp only [Bool.decide_eq_true]
    _ = 2046 := by
      rw [hruns, Finset.card_union_of_disjoint hdisjoint, Nat.card_Ioo, Nat.card_Ioo]
      omega

/-- Three predicates of which every element meets exactly one count the list. -/
theorem countP_add_of_partition {α : Type} {p q r : α → Bool}
    (h : ∀ a, (if p a then 1 else 0) + (if q a then 1 else 0) + (if r a then 1 else 0) = 1) (l : List α) :
    l.countP p + l.countP q + l.countP r = l.length := by
  induction l with
  | nil => rfl
  | cons a l ih =>
    have ha := h a
    rw [List.countP_cons, List.countP_cons, List.countP_cons, List.length_cons]
    omega

theorem countP_subnormal :
    (List.range 65536).countP (fun n => fp16Class (BitVec.ofNat 16 n) == .subnormal) = 2046 := by
  refine countP_exp_mant_ne_zero (e := 0) (by decide) fun n hn => ?_
  rw [beq_iff_eq, fp16Class_eq_subnormal_iff, fp16Exp_toNat, fp16Mant_toNat, BitVec.toNat_ofNat,
    Nat.mod_eq_of_lt (show n < 2 ^ 16 from hn)]

theorem countP_nan :
    (List.range 65536).countP (fun n => fp16Class (BitVec.ofNat 16 n) == .nan) = 2046 := by
  refine countP_exp_mant_ne_zero (e := 31) (by decide) fun n hn => ?_
  rw [beq_iff_eq, fp16Class_eq_nan_iff, fp16Exp_toNat, fp16Mant_toNat, BitVec.toNat_ofNat,
    Nat.mod_eq_of_lt (show n < 2 ^ 16 from hn)]

/-- Every pattern is left fixed, or is a subnormal, or is a NaN. -/
theorem fixed_subnormal_nan_partition (h : Word16) :
    (if encodeHalf (decodeHalf h) == h then 1 else 0) + (if fp16Class h == .subnormal then 1 else 0) +
      (if fp16Class h == .nan then 1 else 0) = 1 := by
  simp only [beq_iff_eq, encodeHalf_decodeHalf_eq_self_iff]
  cases fp16Class h <;> rfl

/-! ### The obligations -/

/-- Settles O30: the exponent field comes back in every class, the mantissa field in the normal class. -/
theorem encodeAfterDecodeByClass : Obligations.EncodeAfterDecodeByClass := by
  refine ⟨fun h hlo hhi => ?normal, fun h he => ?zeroExponent, fun h he => ?allOnes,
    encodeHalf_decodeHalf_eq_self_iff⟩
  case normal =>
    exact encodeHalf_decodeHalf_eq_iff.mpr ⟨rfl, rfl, fp16Mant_encodeHalf_decodeHalf_of_normal (by omega)⟩
  case zeroExponent =>
    have hexp : fp16Exp h = 0#5 := BitVec.eq_of_toNat_eq he
    simp only [encodeHalf_decodeHalf_eq_iff, fp16Mant_encodeHalf_decodeHalf_of_special (.inl he), hexp,
      fp16_fields_and, fp16_fields_signMask, BitVec.and_allOnes, BitVec.and_zero, and_self]
  case allOnes =>
    have hexp : fp16Exp h = 31#5 := BitVec.eq_of_toNat_eq he
    simp only [encodeHalf_decodeHalf_eq_iff, fp16Mant_encodeHalf_decodeHalf_of_special (.inr he), hexp,
      fp16_fields_or, fp16_fields_and, fp16_fields_signMask, fp16_fields_infinity, BitVec.and_allOnes,
      BitVec.and_zero, BitVec.or_zero, BitVec.zero_or, and_self]

/-- Settles O31: the patterns not left fixed are counted in runs of consecutive numbers. -/
theorem encodeAfterDecodeCounts : Obligations.EncodeAfterDecodeCounts := by
  refine ⟨?fixed, countP_subnormal, countP_nan⟩
  case fixed =>
    have htotal := countP_add_of_partition (fun n => fixed_subnormal_nan_partition (BitVec.ofNat 16 n))
      (List.range 65536)
    rw [countP_subnormal, countP_nan, List.length_range] at htotal
    exact Nat.add_right_cancel (Nat.add_right_cancel htotal)

/-- Settles O32: an ENCODE result is in a class that R77 leaves fixed, and DECODE is injective. -/
theorem projectionLaw : Obligations.ProjectionLaw := by
  refine ⟨fun x => ?projection, decodeHalf_encodeHalf_decodeHalf_eq_iff, fun h hclass hfixed => ?fails⟩
  case projection => exact (encodeHalf_decodeHalf_eq_self_iff _).mpr (fp16Class_encodeHalf_ne x)
  case fails =>
    obtain ⟨hsub, hnan⟩ :=
      (encodeHalf_decodeHalf_eq_self_iff h).mp ((decodeHalf_encodeHalf_decodeHalf_eq_iff h).mp hfixed)
    exact hclass.elim hsub hnan

end Sys2Proof.Machine
end

section
/-! The numerics family: order and images (R79). Below the sign bit ENCODE clamps the number that the exponent field and
the upper mantissa make up, and DECODE orders patterns by exponent field, then by mantissa. -/

namespace Sys2Proof.Machine

/-! ### Order -/

/-- What ENCODE does to `q`, the exponent field and the upper mantissa read as one number: 0 below exponent field 113,
the infinity from 143 on, and between them the exponent is rebiased. -/
def clampMagnitude (q : Nat) : Nat :=
  if q < 113 * 1024 then 0 else if 143 * 1024 ≤ q then 31 * 1024 else q - 112 * 1024

theorem clampMagnitude_mono : Monotone clampMagnitude := by
  intro p q hpq
  unfold clampMagnitude
  split_ifs <;> omega

theorem encodeHalf_magnitude (x : Word32) :
    (encodeHalf x).toNat % 2 ^ 15 = clampMagnitude (x.toNat % 2 ^ 31 / 8192) := by
  rw [encodeHalf_toNat, encExpOut_eq, encMantOut_eq, clampMagnitude]
  split_ifs <;> omega

theorem decExpOut_lt_decExpOut {g h : Word16} (hlt : (fp16Exp g).toNat < (fp16Exp h).toNat) :
    decExpOut g < decExpOut h := by
  have hbound := (fp16Exp h).isLt
  rw [decExpOut_eq, decExpOut_eq, ← fp16Exp_toNat, ← fp16Exp_toNat]
  split_ifs <;> omega

theorem decodeHalf_magnitude (h : Word16) :
    (decodeHalf h).toNat % 2 ^ 31 = decExpOut h * 8388608 + (fp16Mant h).toNat * 8192 := by
  have he := decExpOut_le h
  have hm := (fp16Mant h).isLt
  rw [decodeHalf_toNat, ← fp16Mant_toNat]
  omega

/-- DECODE is strictly increasing below the sign bit: a larger exponent field outweighs every mantissa. -/
theorem decodeHalf_magnitude_lt {g h : Word16} (hlt : g.toNat % 2 ^ 15 < h.toNat % 2 ^ 15) :
    (decodeHalf g).toNat % 2 ^ 31 < (decodeHalf h).toNat % 2 ^ 31 := by
  have hm := (fp16Mant g).isLt
  rw [decodeHalf_magnitude, decodeHalf_magnitude]
  obtain hexp | ⟨hexp, hmant⟩ : (fp16Exp g).toNat < (fp16Exp h).toNat ∨
      ((fp16Exp g).toNat = (fp16Exp h).toNat ∧ (fp16Mant g).toNat < (fp16Mant h).toNat) := by
    rw [fp16Exp_toNat, fp16Exp_toNat, fp16Mant_toNat, fp16Mant_toNat]
    omega
  case inl =>
    have hexpOut := decExpOut_lt_decExpOut hexp
    omega
  case inr =>
    have hexpOut : decExpOut g = decExpOut h := by
      rw [← fp32Exp_decodeHalf, ← fp32Exp_decodeHalf, fp32Exp_decodeHalf_congr (BitVec.eq_of_toNat_eq hexp)]
    omega

/-! ### Images -/

/-- ENCODE reaches exactly what ENCODE after DECODE leaves fixed. -/
theorem exists_encodeHalf_eq_iff (h : Word16) :
    (∃ x, encodeHalf x = h) ↔ fp16Class h ≠ .subnormal ∧ fp16Class h ≠ .nan := by
  constructor
  case mp =>
    rintro ⟨x, rfl⟩
    exact fp16Class_encodeHalf_ne x
  case mpr => exact fun hclass => ⟨decodeHalf h, (encodeHalf_decodeHalf_eq_self_iff h).mpr hclass⟩

/-- An operand of DECODE for a pattern without low bits whose exponent field DECODE gives. -/
theorem exists_decodeHalf_of_exp {y : Word32} {e : BitVec 5} (hlow : fp32Lower y = 0#13)
    (hexp : ∀ h : Word16, fp16Exp h = e → decExpOut h = (fp32Exp y).toNat) : ∃ h, decodeHalf h = y := by
  obtain ⟨hs, he, hm⟩ := fp16_fields_append (fp32Sign y) e (fp32Upper y)
  refine ⟨fp32Sign y ++ e ++ fp32Upper y, fp32_eq_iff.mpr ⟨?sign, ?exponent, ?upper, ?lower⟩⟩
  case sign => rw [fp32Sign_decodeHalf, hs]
  case exponent => exact BitVec.eq_of_toNat_eq ((fp32Exp_decodeHalf _).trans (hexp _ he))
  case upper => rw [fp32Upper_decodeHalf, hm]
  case lower => rw [fp32Lower_decodeHalf, hlow]

theorem decExpOut_range (h : Word16) :
    decExpOut h = 0 ∨ (113 ≤ decExpOut h ∧ decExpOut h ≤ 142) ∨ decExpOut h = 255 := by
  have hlt := (fp16Exp h).isLt
  rw [decExpOut_eq, ← fp16Exp_toNat]
  split_ifs <;> omega

theorem exists_decodeHalf_eq_iff (y : Word32) :
    (∃ h, decodeHalf h = y) ↔ fp32Lower y = 0#13 ∧
      ((fp32Exp y).toNat = 0 ∨ (113 ≤ (fp32Exp y).toNat ∧ (fp32Exp y).toNat ≤ 142) ∨ (fp32Exp y).toNat = 255) := by
  constructor
  case mp =>
    rintro ⟨h, rfl⟩
    rw [fp32Exp_decodeHalf]
    exact ⟨fp32Lower_decodeHalf h, decExpOut_range h⟩
  case mpr =>
    rintro ⟨hlow, hzero | hnormal | hones⟩
    · refine exists_decodeHalf_of_exp (e := 0#5) hlow fun h he => ?_
      rw [hzero, decExpOut_of_zeroExponent (he ▸ rfl)]
    · exact ⟨_, (roundTrip_eq_self_iff_of_normal hnormal).mpr hlow⟩
    · refine exists_decodeHalf_of_exp (e := 31#5) hlow fun h he => ?_
      rw [hones, decExpOut_of_allOnes (he ▸ rfl)]

/-! ### The obligation -/

/-- Settles O33: ENCODE is a monotone clamp below the sign bit, DECODE compares exponent fields first, and each image is
what the other operation brings back. -/
theorem orderAndImages : Obligations.OrderAndImages := by
  refine ⟨fun x y hle => ?monotone, fun _ _ => decodeHalf_magnitude_lt, decodeHalf_injective,
    exists_encodeHalf_eq_iff, exists_decodeHalf_eq_iff⟩
  case monotone =>
    rw [encodeHalf_magnitude, encodeHalf_magnitude]
    exact clampMagnitude_mono (Nat.div_le_div_right hle)

end Sys2Proof.Machine
end

section
/-! The other family: the classes of ENCODE by the magnitude of the value denoted (R44, R54, R55), all that one step
does (R26, R32, R40), and the step that evaluates a loaded word (R38, R40). -/

namespace Sys2Proof.Machine

/-! ### Operands without a value -/

/-- Only an exponent field of all ones leaves an FP32 pattern without a value (R44). -/
theorem fp32Exp_of_fp32Value_none {x : Word32} (h : fp32Value x = none) : (fp32Exp x).toNat = 255 := by
  by_contra hne
  obtain ⟨v, hv⟩ : ∃ v, fp32Value x = some v := patternValue_of_exp_ne hne
  rw [h] at hv
  cases hv

/-! ### The block of a decoded operation -/

/-- A block decodes a signal to an operation of its own (R32). -/
theorem block_of_decodePort {b : Block} {sig : Signal} {i : Instr} (h : decodePort b sig = .ok i) :
    i.block = b := by
  obtain ⟨-, v, -, rfl⟩ := decodePort_ok h
  cases b <;> rfl

/-! ### The line of a loaded word -/

/-- The line that `State.presentNext` puts at the head of the program. -/
def loadedLine (s : State) (nbits w : Nat) : Line :=
  { block := (blockOfWidth nbits).getD .encoder, dst := freshName s, src := .literal nbits (w % 2 ^ nbits),
    unit := s.wired }

theorem presentNext_program (s : State) (nbits w : Nat) :
    (s.presentNext nbits w).program = loadedLine s nbits w :: s.program := rfl

theorem presentNext_schedule (s : State) (nbits w : Nat) :
    (s.presentNext nbits w).schedule = 0 :: s.schedule := rfl

/-- The literal of a loaded line always fits its width, so it stands for the levels of the word. -/
theorem sourceSignal_loadedLine {nets : Table Signal} (s : State) {nbits w : Nat} (h : w < 2 ^ nbits) :
    sourceSignal nets (loadedLine s nbits w).src = some (levelsOf nbits w) := by
  rw [loadedLine, Nat.mod_eq_of_lt h, sourceSignal_literal h]

/-- A ready line at the head of the program is next when the schedule's number is 0. -/
theorem nextLine_of_ready_head {s : State} {l : Line} {rest : List Line} (hp : s.program = l :: rest)
    (hs : s.schedule.headD 0 = 0) (hr : lineReady s.nets l = true) : nextLine s = some (l, rest) := by
  rw [nextLine, hs, hp, Nat.zero_mod, pickReady, if_pos hr]

/-- A loaded line is next, from every state. -/
theorem nextLine_withFetchWord (s : State) {nbits w : Nat} (h : w < 2 ^ nbits) :
    nextLine (s.withFetchWord nbits w) = some (loadedLine s nbits w, s.program) := by
  refine nextLine_of_ready_head (presentNext_program s nbits w) ?choice ?ready
  case choice =>
    rw [State.withFetchWord, presentNext_schedule, List.headD_cons]
  case ready =>
    rw [lineReady, sourceSignal_loadedLine s h, Option.isSome_some]

/-! ### The obligations -/

/-- Settles O10: the two thresholds are those of the exponent field, and an operand without a value has the largest
exponent field. -/
theorem encodeClassesByMagnitude : Obligations.EncodeClassesByMagnitude := by
  refine ⟨fun x v hv => ?underflow, fun x v hv => ?overflow, fun x hx => ?noValue⟩
  case underflow => exact encRebiased_nonpos_iff.trans (fp32_abs_lt_iff_underflow hv).symm
  case overflow => exact encRebiased_ge_iff.trans (fp32_le_abs_iff_overflow hv).symm
  case noValue =>
    have hexp := fp32Exp_of_fp32Value_none hx
    exact encRebiased_ge_iff.mpr (by omega)

/-- Settles O38: the launch and the delivery touch no port, and the operation between them has the frame of
`encodeCompletesAndFrames` or `decodeCompletesAndFrames`. -/
theorem stepGivesTheNetItsResult : Obligations.StepGivesTheNetItsResult := by
  intro s l rest sig i hn hd hs hi
  have hnets := nets_after_line hi s rest
  obtain ⟨before, after, hprog, hrest, -⟩ := pickReady_some hn
  refine ⟨_, step_eq_next hn hd hs hi, block_of_decodePort hi, ?result, ?otherNets, by simp,
    (perm_of_nextLine hn).symm, ⟨before, after, hprog, hrest⟩, by simp, by simp, ?ports⟩
  case result => rw [hnets, tableFind_tablePut_same]
  case otherNets =>
    intro n hne
    rw [hnets, tableFind_tablePut_other _ _ hne]
  case ports =>
    cases i with
    | encode x =>
      obtain ⟨t, ht, hin, hout, hother, hdecoders, -⟩ := encodeCompletesAndFrames x (s.launch l rest)
      obtain rfl := Host.Outcome.next.inj ((exec_eq (.encode x) _).symm.trans ht)
      exact ⟨hin, hout, hother, hdecoders⟩
    | decode h =>
      obtain ⟨t, ht, hin, hout, hother, hencoders, -⟩ := decodeCompletesAndFrames h (s.launch l rest)
      obtain rfl := Host.Outcome.next.inj ((exec_eq (.decode h) _).symm.trans ht)
      exact ⟨hin, hout, hother, hencoders⟩

/-- Settles O42: the loaded line is next and its net is free, so the step does what `stepGivesTheNetItsResult` says. -/
theorem loadedWordRunsNext : Obligations.LoadedWordRunsNext := by
  constructor
  case left =>
    intro s x
    obtain ⟨t, ht, -, hnet, -, hprog, -, -, -, -, hin, hout, -⟩ :=
      stepGivesTheNetItsResult (s.withFetchWord 32 x.toNat) (loadedLine s 32 x.toNat) s.program _ (.encode x)
        (nextLine_withFetchWord s x.isLt) (tableFind_freshName s) (sourceSignal_loadedLine s x.isLt)
        (decodePort_encoder_word x)
    exact ⟨t, ht, hin, hout, tableFind_freshName s, hnet, hprog⟩
  case right =>
    intro s h
    obtain ⟨t, ht, -, hnet, -, hprog, -, -, -, -, hin, hout, -⟩ :=
      stepGivesTheNetItsResult (s.withFetchWord 16 h.toNat) (loadedLine s 16 h.toNat) s.program _ (.decode h)
        (nextLine_withFetchWord s h.isLt) (tableFind_freshName s) (sourceSignal_loadedLine s h.isLt)
        (decodePort_decoder_word h)
    exact ⟨t, ht, hin, hout, tableFind_freshName s, hnet, hprog⟩

/-- Settles O41: with no line there is none to fetch. -/
theorem endedRunIsHeld : Obligations.EndedRunIsHeld := fun _ h => step_of_program_nil h

end Sys2Proof.Machine
end
